-- ==== Sys2Proof/Word.lean ====
section
/-! DEFINITION. The word types of the block (R10) and the small closed sets of names its rules use. -/

namespace Sys2Proof

/-- A byte, an unsigned integer 0 to 255 (R10). -/
abbrev Byte := BitVec 8

/-- A 16-bit unsigned value: the declared length, `BUF.RD16` (R53). -/
abbrev Half := BitVec 16

/-- A 32-bit unsigned value: a data word, `BUF.RD32` (R53). -/
abbrev Word := BitVec 32

/-- A buffer index, 0 or 1 (R21): `ACTIVE` and the index part of `CMD` hold one. -/
inductive BufIdx where
  | b0
  | b1
deriving DecidableEq, Repr

/-- The two conditions the UART raises (R28). -/
inductive Condition where
  | data
  | tout
deriving DecidableEq, Repr

/-- The four agents (R6). -/
inductive Agent where
  | env
  | rx
  | con
  | sys
deriving DecidableEq, Repr

end Sys2Proof
end

