-- ==== Sys2Proof/Config.lean ====
section
/-! DEFINITION. The configuration record (R7, 92_eei_decisions.md section 2), its constraints (R8) and the
error codes whose numbers it gives (R221); the free bytes of an endless line (R15). -/

namespace Sys2Proof

/-- The parameters of R7 and the three open switches of D13, D21, D24. No rule builds in a default. -/
structure Config where
  /-- `END`, the frame delimiter -/
  endByte : Byte
  /-- `ESC`, the escape byte -/
  escByte : Byte
  /-- `ESC_END`, second byte of the pair that stands for `END` -/
  escEndByte : Byte
  /-- `ESC_ESC`, second byte of the pair that stands for `ESC` -/
  escEscByte : Byte
  /-- `CK_INIT`, the checksum seed -/
  ckInit : Byte
  /-- `CAP`, capacity in bytes of each buffer -/
  cap : Nat
  /-- `MAX_BLOCK`, largest flash write block; only the defaults of `CAP` and `LEN_LIMIT` use it -/
  maxBlock : Nat
  /-- `LEN_LIMIT`, largest declared length that is not hard-rejected -/
  lenLimit : Nat
  /-- `DATA_HDR`, size of the inner header of a data-carrying command -/
  dataHdr : Nat
  /-- `FIFO_DEPTH`, capacity of the receive queue -/
  fifoDepth : Nat
  /-- `E_OK` -/
  eOk : Byte
  /-- `E_BAD_LEN` -/
  eBadLen : Byte
  /-- `E_BAD_CK` -/
  eBadCk : Byte
  /-- `E_NOT_IN_FLASH`, produced by the dispatcher only (R221) -/
  eNotInFlash : Byte
  /-- `E_NOT_IMPL`, produced by the dispatcher only (R221) -/
  eNotImpl : Byte
  /-- `HARDLEN_STATUS`, status of the fixed "bad length" pair -/
  hardlenStatus : Byte
  /-- `HANDLER_EXCLUSIVE` (R170, D21) -/
  handlerExclusive : Bool
  /-- `REGMAP` (R33, D13): names of port operations with bus addresses; read by no rule -/
  regmap : List (String × Nat)
  /-- `DATA_WRITE_ON_ERROR` (R207, D24): the dispatcher's policy; read by no rule of the block -/
  dataWriteOnError : Bool
deriving DecidableEq, Repr

/-- `HDR_LEN` (R9): the one size the source fixes. -/
def hdrLen : Nat := 4

/-- The defaults of R7. PRESUMED: the spec marks every one "from general knowledge" (log 3, log 4). -/
def Config.default : Config where
  endByte := 0xC0
  escByte := 0xDB
  escEndByte := 0xDC
  escEscByte := 0xDD
  ckInit := 0xEF
  cap := 0x4000 + 64
  maxBlock := 0x4000
  lenLimit := 0x4000 + 16
  dataHdr := 16
  fifoDepth := 128
  eOk := 0x00
  eBadLen := 0xC0
  eBadCk := 0xC1
  eNotInFlash := 0xC6
  eNotImpl := 0xFF
  hardlenStatus := 0xEE
  handlerExclusive := false
  regmap := []
  dataWriteOnError := false

/-- Free value, without a body (log 9): the bytes of an endless line (R15), numbered from 0. No rule says which bytes
arrive. -/
opaque Config.freeLineByte : Nat → Byte

/-- R8 (a): the four byte codes are pairwise distinct. -/
def Config.codesDistinct (c : Config) : Bool :=
  decide [c.endByte, c.escByte, c.escEndByte, c.escEscByte].Nodup

/-- R8 (b): a frame that passes the oversize check lies wholly inside a buffer. -/
def Config.capHoldsLimit (c : Config) : Bool :=
  decide (hdrLen + c.lenLimit ≤ c.cap)

/-- R8 (c). -/
def Config.limitHoldsHeader (c : Config) : Bool :=
  decide (c.dataHdr ≤ c.lenLimit)

/-- R8 (d): the declared length is a 16-bit field. -/
def Config.limitFitsHalf (c : Config) : Bool :=
  decide (c.lenLimit ≤ 0xFFFF)

/-- R8 (e): the five error codes are pairwise distinct. -/
def Config.errorsDistinct (c : Config) : Bool :=
  decide [c.eOk, c.eBadLen, c.eBadCk, c.eNotInFlash, c.eNotImpl].Nodup

/-- R8 (f): the inner length word lies inside the inner header. -/
def Config.headerHoldsLength (c : Config) : Bool :=
  decide (4 ≤ c.dataHdr)

/-- R7's own type of `FIFO_DEPTH`, "natural, at least 1" (log 21). -/
def Config.queueNonempty (c : Config) : Bool :=
  decide (1 ≤ c.fifoDepth)

/-- A configuration the model accepts: the six constraints of R8 and the type bound of R7. (`CAP` at least 1
follows from (b).) -/
def Config.valid (c : Config) : Bool :=
  c.codesDistinct && c.capHoldsLimit && c.limitHoldsHeader && c.limitFitsHalf && c.errorsDistinct &&
    c.headerHoldsLength && c.queueNonempty

/-- The members of the source's ErrorCode that have a name (R201, R221). -/
inductive ErrCode where
  | ok
  | badLen
  | badCk
  | notInFlash
  | notImpl
deriving DecidableEq, Repr

/-- The number of an error code under a configuration (R221). -/
def ErrCode.value (c : Config) : ErrCode → Byte
  | .ok => c.eOk
  | .badLen => c.eBadLen
  | .badCk => c.eBadCk
  | .notInFlash => c.eNotInFlash
  | .notImpl => c.eNotImpl

end Sys2Proof
end

