-- ==== Sys2Proof/Syntax.lean ====
section
/-! DEFINITION. The operations of the block, one constructor for each row of the opcode table (R2, R92). -/

namespace Sys2Proof

/-- The operations (R6, R92). Buffer indexes and offsets are naturals, because the spec says what an operation
does with one that is out of range (R54). -/
inductive Instr where
  | rxEnd
  | rxEsc
  | rxEscEnd
  | rxEscEsc
  | rxData (b : Byte)
  | accept (b : Byte)
  | intEnter
  | intPop
  | intExit
  | envPush (b : Byte)
  | envRaise (c : Condition)
  | cmdPoll
  | cmdTake
  | bufRd8 (i k : Nat)
  | bufRd16 (i k : Nat)
  | bufRd32 (i k : Nat)
  | hdrOp (i : Nat)
  | hdrCk (i : Nat)
  | hdrLen (i : Nat)
  | ckHardlen (i : Nat)
  | ckSum (i k n : Nat)
  | ckFixlen (i : Nat) (e : Half)
  | ckData (i : Nat)
  | irqEnable
  | irqMask
  | irqUnmask
  | reset
deriving DecidableEq, Repr

/-- The agent whose operation it is (the table of R6). -/
def Instr.agent : Instr → Agent
  | .rxEnd | .rxEsc | .rxEscEnd | .rxEscEsc | .rxData _ | .accept _ => .rx
  | .intEnter | .intPop | .intExit => .rx
  | .envPush _ | .envRaise _ => .env
  | .cmdPoll | .cmdTake => .con
  | .bufRd8 _ _ | .bufRd16 _ _ | .bufRd32 _ _ => .con
  | .hdrOp _ | .hdrCk _ | .hdrLen _ => .con
  | .ckHardlen _ | .ckSum _ _ _ | .ckFixlen _ _ | .ckData _ => .con
  | .irqEnable | .irqMask | .irqUnmask => .con
  | .reset => .sys

/-- `ACCEPT` and its byte-class cases happen only inside an `INT.POP` step (R6, R140). -/
def Instr.insidePop : Instr → Bool
  | .rxEnd | .rxEsc | .rxEscEnd | .rxEscEsc | .rxData _ | .accept _ => true
  | .intEnter | .intPop | .intExit | .envPush _ | .envRaise _ => false
  | .cmdPoll | .cmdTake | .bufRd8 _ _ | .bufRd16 _ _ | .bufRd32 _ _ => false
  | .hdrOp _ | .hdrCk _ | .hdrLen _ | .ckHardlen _ | .ckSum _ _ _ | .ckFixlen _ _ | .ckData _ => false
  | .irqEnable | .irqMask | .irqUnmask | .reset => false

end Sys2Proof
end

