-- ==== Sys2Proof/WellFormed.lean ====
section
/-! DEFINITION. Which operands a rule gives a meaning to (R54, R81, R92), as far as the operation alone says. -/

namespace Sys2Proof

/-- What is wrong with an operation's operands. -/
inductive IllFormed where
  /-- a buffer index other than 0 or 1 (R54) -/
  | badIndex
  /-- an offset or a range that passes `CAP` (R54, R204) -/
  | pastCap
  /-- an `RX.DATA` whose byte is one of the four codes (R81, R127) -/
  | codeByte
deriving DecidableEq, Repr

/-- The check of a read of `n` bytes at offset `k` of buffer `i` (R54). -/
def rangeFault (c : Config) (i k n : Nat) : Option IllFormed :=
  if 2 ≤ i then some .badIndex else if c.cap < k + n then some .pastCap else none

/-- What is wrong with an operation under a configuration, if anything. -/
def Instr.illFormed (c : Config) : Instr → Option IllFormed
  | .rxEnd => none
  | .rxEsc => none
  | .rxEscEnd => none
  | .rxEscEsc => none
  | .rxData b =>
    if b = c.endByte ∨ b = c.escByte ∨ b = c.escEndByte ∨ b = c.escEscByte then some .codeByte else none
  | .accept _ => none
  | .intEnter => none
  | .intPop => none
  | .intExit => none
  | .envPush _ => none
  | .envRaise _ => none
  | .cmdPoll => none
  | .cmdTake => none
  | .bufRd8 i k => rangeFault c i k 1
  | .bufRd16 i k => rangeFault c i k 2
  | .bufRd32 i k => rangeFault c i k 4
  | .hdrOp i => rangeFault c i 0 1
  | .hdrCk i => rangeFault c i 1 1
  | .hdrLen i => rangeFault c i 2 2
  | .ckHardlen i => rangeFault c i 2 2
  | .ckSum i k n => rangeFault c i k n
  | .ckFixlen i _ => rangeFault c i 2 2
  | .ckData i => rangeFault c i 1 3
  | .irqEnable => none
  | .irqMask => none
  | .irqUnmask => none
  | .reset => none

/-- An operation whose operands are all in range. -/
def Instr.wf (c : Config) (i : Instr) : Bool :=
  (i.illFormed c).isNone

end Sys2Proof
end

