-- ==== Sys2Proof/Decode.lean ====
section
/-! DEFINITION. The encodings: format B8 and its classes (R81), the decoder and the encoder of raw bytes, and the
sender's side of formats FRAME, REQ and DATAREQ (R83 to R88, R94), from which streams are built. -/

namespace Sys2Proof

/-- The class of a raw byte (R81). -/
inductive ByteClass where
  | delimiter
  | escape
  | escEnd
  | escEsc
  | data
deriving DecidableEq, Repr

/-- A row of the table of R81: `match` and `mask`. -/
structure B8Row where
  cls : ByteClass
  pattern : Byte
  mask : Byte
deriving DecidableEq, Repr

/-- The table of R81, in the order in which it is tried. -/
def b8Rows (c : Config) : List B8Row :=
  [⟨.delimiter, c.endByte, 0xFF⟩, ⟨.escape, c.escByte, 0xFF⟩, ⟨.escEnd, c.escEndByte, 0xFF⟩,
   ⟨.escEsc, c.escEscByte, 0xFF⟩, ⟨.data, 0x00, 0x00⟩]

/-- Whether a raw byte has a row's pattern under its mask. -/
def B8Row.fits (r : B8Row) (b : Byte) : Bool :=
  b &&& r.mask == r.pattern

/-- The class of the first row that fits (R81). The last row fits every byte, so the default is never used. -/
def classOf (c : Config) (b : Byte) : ByteClass :=
  match (b8Rows c).find? (fun r => r.fits b) with
  | some r => r.cls
  | none => .data

/-- Why bytes decode to nothing. -/
inductive DecodeError where
  /-- there is no byte (R81 classes every byte there is) -/
  | noByte
deriving DecidableEq, Repr

/-- The receive path's operation for one raw byte (R81). -/
def byteInstr (c : Config) (b : Byte) : Instr :=
  match classOf c b with
  | .delimiter => .rxEnd
  | .escape => .rxEsc
  | .escEnd => .rxEscEnd
  | .escEsc => .rxEscEsc
  | .data => .rxData b

/-- The first operation of a byte stream and the bytes after it. One byte is one operation (R80). -/
def decode (c : Config) : List Byte → Except DecodeError (Instr × List Byte)
  | [] => .error .noByte
  | b :: rest => .ok (byteInstr c b, rest)

/-- The raw bytes of an operation of format B8 (R81); an operation of format PORT has no bit pattern (R92). -/
def encode (c : Config) : Instr → Option (List Byte)
  | .rxEnd => some [c.endByte]
  | .rxEsc => some [c.escByte]
  | .rxEscEnd => some [c.escEndByte]
  | .rxEscEsc => some [c.escEscByte]
  | .rxData b => some [b]
  | .accept _ => none
  | .intEnter => none
  | .intPop => none
  | .intExit => none
  | .envPush _ => none
  | .envRaise _ => none
  | .cmdPoll => none
  | .cmdTake => none
  | .bufRd8 _ _ => none
  | .bufRd16 _ _ => none
  | .bufRd32 _ _ => none
  | .hdrOp _ => none
  | .hdrCk _ => none
  | .hdrLen _ => none
  | .ckHardlen _ => none
  | .ckSum _ _ _ => none
  | .ckFixlen _ _ => none
  | .ckData _ => none
  | .irqEnable => none
  | .irqMask => none
  | .irqUnmask => none
  | .reset => none

/-- Byte `j` of a table word, bit 0 of the word being bit 0 of byte 0. -/
def tableByte (w j : Nat) : Byte :=
  BitVec.ofNat 8 (w / 2 ^ (8 * j))

/-- The bytes of a table word of `nbits` bits; at least one, the bits above `nbits` being zero. -/
def tableBytes (nbits w : Nat) : List Byte :=
  (List.range (max 1 ((nbits + 7) / 8))).map (tableByte (w % 2 ^ nbits))

/-- What the decoder reads from a table word, under the default configuration, whose constants the table's
`match` column repeats. A word of more than one byte is no operation of this block (R80). -/
def decodeTableWord (nbits w : Nat) : Option Instr :=
  match decode Config.default (tableBytes nbits w) with
  | .ok (i, []) => some i
  | .ok (_, _ :: _) => none
  | .error _ => none

/-- `stuff1` of R86: the raw bytes a sender sends for one payload byte. -/
def stuffByte (c : Config) (b : Byte) : List Byte :=
  if b = c.endByte then [c.escByte, c.escEndByte]
  else if b = c.escByte then [c.escByte, c.escEscByte]
  else [b]

/-- `stuff` of R86. -/
def stuff (c : Config) : List Byte → List Byte
  | [] => []
  | b :: rest => stuffByte c b ++ stuff c rest

/-- A well-formed frame on the wire (R83), `FRAME{P}` of R94. -/
def frame (c : Config) (payload : List Byte) : List Byte :=
  c.endByte :: stuff c payload ++ [c.endByte]

/-- `le16bytes` of R94. -/
def le16Bytes (n : Nat) : List Byte :=
  [BitVec.ofNat 8 n, BitVec.ofNat 8 (n / 256)]

/-- `W(v)` of R94: the four bytes of a 32-bit value, least significant first. -/
def le32Bytes (n : Nat) : List Byte :=
  [BitVec.ofNat 8 n, BitVec.ofNat 8 (n / 256), BitVec.ofNat 8 (n / 65536), BitVec.ofNat 8 (n / 16777216)]

/-- `REQ{op, ck, D}` of R94: the payload of a request (R87). -/
def request (op ck : Byte) (d : List Byte) : List Byte :=
  op :: ck :: le16Bytes d.length ++ d

end Sys2Proof
end

