-- ==== Sys2Proof/Machine/Checksum.lean ====
section
/-! DEFINITION. The checksum function (R110) and the data-carrying request whose checksum field it fills (R88, R94). -/

namespace Sys2Proof.Machine

/-- `xorsum` (R110): the seed, exclusive-ored with every byte in order. -/
def xorsum (c : Config) (s : List Byte) : Byte :=
  s.foldl (fun r b => r ^^^ b) c.ckInit

/-- `DATAREQ{op, H, X}` of R94: a well-formed data-carrying request (R88). -/
def dataRequest (c : Config) (op : Byte) (h x : List Byte) : List Byte :=
  request op (xorsum c x) (le32Bytes x.length ++ h ++ x)

end Sys2Proof.Machine
end

