-- ==== Sys2Proof/Machine/State.lean ====
section
/-! DEFINITION. The state of the block (R20), the inputs of a run (R15, R30 (e), R36), what the consumer is in the
middle of (R56 (c)), the reasons a step can stop (R12), and the state after reset (R36, R250). -/

namespace Sys2Proof.Machine

/-- The bytes of one buffer, as pairs of an offset and a byte, offsets strictly rising, no byte equal to zero.
An offset that is not listed reads zero, the reset contents (R36, log 16). -/
abbrev Memory := List Host.Cell

/-- `DSTATE` (R25). The reserved value 3 is left out, as R25 allows (log 20). -/
inductive DState where
  /-- 0: no start delimiter since the last frame ended, or since reset -/
  | noFrame
  /-- 1: inside a frame, the last byte was not an escape -/
  | inFrame
  /-- 2: inside a frame, an escape pair is open -/
  | escaping
deriving DecidableEq, Repr

/-- `INT_MODE` (R29). -/
inductive IntMode where
  | idle
  | draining
deriving DecidableEq, Repr

/-- Whether this run's `RESET` has happened (R250, R253; the model's own, log 11). -/
inductive Phase where
  | beforeReset
  | running
deriving DecidableEq, Repr

/-- The line (R15): the raw bytes still to arrive, a finite or an infinite sequence (log 9). -/
structure Line where
  /-- the bytes that arrive first, in order -/
  bytes : List Byte
  /-- what follows them: `none`, nothing, the line is finite; `some n`, bytes without end, the free bytes number
  `n`, `n + 1` and so on -/
  endless : Option Nat
deriving DecidableEq, Repr

/-- The value an operation returns to the consumer (R92; the model's own record of it, log 5). -/
inductive Result where
  /-- of `CMD.POLL` and `CMD.TAKE`: `NONE`, `BUF0` or `BUF1` -/
  | cmd (c : Option BufIdx)
  /-- of `BUF.RD8`, `HDR.OP`, `HDR.CK`, `CK.SUM` -/
  | byte (v : Byte)
  /-- of `BUF.RD16`, `HDR.LEN` -/
  | half (v : Half)
  /-- of `BUF.RD32` -/
  | word (v : Word)
  /-- of `CK.FIXLEN`, `CK.DATA`: an error code -/
  | code (v : Byte)
  /-- of `CK.HARDLEN`: an error code and a status byte -/
  | pair (code status : Byte)
deriving DecidableEq, Repr

/-- The consumer operations that read more than one byte, which a consumer may make byte by byte (R56 (c)). -/
inductive ReadKind where
  | rd16 (k : Nat)
  | rd32 (k : Nat)
  | len
  | hardlen
  | sum (k n : Nat)
  | fixlen (e : Half)
  | data
deriving DecidableEq, Repr

/-- A byte-by-byte read in progress: what is read, of which buffer, and the bytes read so far, in order. -/
structure ByteRun where
  kind : ReadKind
  idx : BufIdx
  done : List Byte
deriving DecidableEq, Repr

/-- One move of a run (R59): an operation as one atomic step; the start of a multi-byte read that is made byte by
byte; or the next byte of that read (R56 (c)). -/
inductive Move where
  | op (i : Instr)
  | split (i : Instr)
  | nextByte
deriving DecidableEq, Repr

/-- The block has no condition treated as fault (R220, 93_implementation_defined.md section 1): no constructor,
so no step can fault (log 19). -/
inductive Fault where
deriving DecidableEq, Repr

/-- Why the model gives a step no meaning (R12 "refused"). All are safe: the model stops, the hardware has no such
step. -/
inductive Refusal where
  /-- raised by no arm of the finished model: an operation not modelled yet -/
  | notModelled (mnemonic : String)
  /-- by `step`: the configuration breaks R8 (a model refuses it). Safe. -/
  | badConfiguration
  /-- by `step`: anything but `RESET` before the run's `RESET` (R253, 93 row 14). Safe. -/
  | beforeReset
  /-- by `RESET`: no meaning in mid-run (R250, 93 row 15). Safe. -/
  | resetInMidRun
  /-- by `step`: `ACCEPT` or a byte-class case scheduled outside `INT.POP` (R140). Safe. -/
  | onlyInsidePop
  /-- by `RX.DATA`: the byte is one of the four codes, so its class is another (R81, R127). Safe. -/
  | codeByte
  /-- by `INT.ENTER`: not enabled (R161). Safe. -/
  | enterNotEnabled
  /-- by `INT.POP`: not enabled (R162). Safe. -/
  | popNotEnabled
  /-- by `INT.EXIT`: not enabled (R163). Safe. -/
  | exitNotEnabled
  /-- by `ENV.PUSH`: the line is exhausted (R164). Safe. -/
  | lineExhausted
  /-- by `ENV.PUSH`: the byte is not the next byte of the line (R164, log 9). Safe. -/
  | notNextOfLine
  /-- by a consumer operation: `HANDLER_EXCLUSIVE` and the handler is draining (R170). Safe. -/
  | consumerHeldOff
  /-- by a consumer operation: the consumer is in the middle of a byte-by-byte read (log 12). Safe. -/
  | consumerBusy
  /-- by a buffer read: the index is not 0 or 1 (R54). Safe. -/
  | badBufferIndex
  /-- by a buffer read: the range passes `CAP` (R54, R204). Safe. -/
  | pastCapacity
  /-- by `CK.DATA`: 4 + `dlen` passes `CAP` (R206). Safe. -/
  | dataPastCapacity
  /-- by `step`: a byte-by-byte start of an operation that reads at most one byte (R56 (c)). Safe. -/
  | notSplittable
  /-- by `step`: a next byte with no byte-by-byte read in progress (R56 (c)). Safe. -/
  | noReadInProgress
deriving DecidableEq, Repr

/-- Everything the spec gives the block (R20), and after it the model's own fields: the inputs of the run and what
the consumer knows (logs 1, 3, 5, 9 to 12). -/
structure State where
  /-- `BUF[0]` (R21) -/
  buf0 : Memory
  /-- `BUF[1]` (R21) -/
  buf1 : Memory
  /-- `ACTIVE` (R22) -/
  active : BufIdx
  /-- `CURSOR` (R23) -/
  cursor : Nat
  /-- `DSTATE` (R25) -/
  dstate : DState
  /-- `CMD` (R26), `none` for `NONE` -/
  cmd : Option BufIdx
  /-- `RX_PEND` (R28), bit 0 `DATA`, bit 1 `TOUT` -/
  rxPend : BitVec 2
  /-- `INT_MODE` (R29) -/
  intMode : IntMode
  /-- `IRQ_EN` (R31) -/
  irqEn : Bool
  /-- `IRQ_MASK` (R31) -/
  irqMask : Bool
  /-- `RXQ` (R32), the head first -/
  rxq : List Byte
  /-- input of the run: the configuration (R7) -/
  cfg : Config
  /-- input of the run: the raw bytes still to arrive, finite or infinite (R15) -/
  line : Line
  /-- input of the run: what `RXQ` holds after `RESET` (R36, R250) -/
  resetRxq : List Byte
  /-- input of the run: the moves the agents make, in order (R59) -/
  sched : List Move
  /-- whether the run's `RESET` has happened (R250) -/
  phase : Phase
  /-- the consumer: a byte-by-byte read in progress (R56 (c)) -/
  conRun : Option ByteRun
  /-- the consumer: what its last result-returning operation returned (R92) -/
  conResult : Option Result
deriving DecidableEq, Repr

/-- The state right after `RESET` (R36, R250) of a run with a given configuration, initial queue, line and
order of moves. At most `FIFO_DEPTH` bytes of the given queue fit. -/
def State.resetWith (c : Config) (q : List Byte) (line : Line) (sched : List Move) : State where
  buf0 := []
  buf1 := []
  active := .b0
  cursor := 0
  dstate := .noFrame
  cmd := none
  rxPend := 0
  intMode := .idle
  irqEn := false
  irqMask := false
  rxq := q.take c.fifoDepth
  cfg := c
  line := line
  resetRxq := q
  sched := sched
  phase := .running
  conRun := none
  conResult := none

/-- The machine right after reset, under the default configuration, with an empty queue (DESIGN CHOICE, log 10),
an exhausted line (DESIGN CHOICE, log 9) and nothing scheduled (DESIGN CHOICE, log 1). -/
def State.reset : State :=
  State.resetWith Config.default [] ⟨[], none⟩ []

end Sys2Proof.Machine
end

