-- ==== Sys2Proof/Machine/Decoder.lean ====
section
/-! DEFINITION. The SLIP decoder (R120 to R129): the pure function `slip_step`, in the normative form of R122, and
the five byte-class cases of R123 to R127. -/

namespace Sys2Proof.Machine

/-- The outcome of one byte (R121). -/
inductive DecOut where
  | none
  | byte (v : Byte)
  | done
deriving DecidableEq, Repr

/-- `slip_step` (R122, the pseudocode, which is the normative form). -/
def slipStep (c : Config) (d : DState) (b : Byte) : DState × DecOut :=
  if b = c.endByte then
    if d = .noFrame then (.inFrame, .none) else (.noFrame, .done)
  else
    match d with
    | .noFrame => (.noFrame, .none)
    | .inFrame => if b = c.escByte then (.escaping, .none) else (.inFrame, .byte b)
    | .escaping =>
      if b = c.escEndByte then (.inFrame, .byte c.endByte)
      else if b = c.escEscByte then (.inFrame, .byte c.escByte)
      else (.escaping, .none)

/-- `RX.END` (R123). -/
def caseEnd (d : DState) : DState × DecOut :=
  match d with
  | .noFrame => (.inFrame, .none)
  | .inFrame => (.noFrame, .done)
  | .escaping => (.noFrame, .done)

/-- `RX.ESC` (R124). -/
def caseEsc (d : DState) : DState × DecOut :=
  match d with
  | .noFrame => (.noFrame, .none)
  | .inFrame => (.escaping, .none)
  | .escaping => (.escaping, .none)

/-- `RX.ESC_END` (R125). -/
def caseEscEnd (c : Config) (d : DState) : DState × DecOut :=
  match d with
  | .noFrame => (.noFrame, .none)
  | .inFrame => (.inFrame, .byte c.escEndByte)
  | .escaping => (.inFrame, .byte c.endByte)

/-- `RX.ESC_ESC` (R126). -/
def caseEscEsc (c : Config) (d : DState) : DState × DecOut :=
  match d with
  | .noFrame => (.noFrame, .none)
  | .inFrame => (.inFrame, .byte c.escEscByte)
  | .escaping => (.inFrame, .byte c.escByte)

/-- `RX.DATA` (R127). -/
def caseData (b : Byte) (d : DState) : DState × DecOut :=
  match d with
  | .noFrame => (.noFrame, .none)
  | .inFrame => (.inFrame, .byte b)
  | .escaping => (.escaping, .none)

/-- The two-bit encoding of `DSTATE` (R25). -/
def DState.bits : DState → BitVec 2
  | .noFrame => 0
  | .inFrame => 1
  | .escaping => 2

end Sys2Proof.Machine
end

