-- ==== Sys2Proof/Machine/Flags.lean ====
section
/-! DEFINITION. The block's one flag (R27), the two bits of the hand-off pointer (R26) and the auxiliary status of
a result (R221). -/

namespace Sys2Proof.Machine

/-- The other buffer index, `1 - ACTIVE` (R144). -/
def otherBuf : BufIdx → BufIdx
  | .b0 => .b1
  | .b1 => .b0

/-- `CMD_VALID` (R26). -/
def State.cmdValid (s : State) : Bool :=
  s.cmd.isSome

/-- `CMD_IDX` (R26): the index, or 0 when `CMD_VALID = 0`. -/
def State.cmdIdx (s : State) : BufIdx :=
  s.cmd.getD .b0

/-- `FRAME_READY` (R27, R224): the level output, equal to `CMD_VALID`. -/
def State.frameReady (s : State) : Bool :=
  s.cmdValid

/-- The auxiliary status that goes with a validator's result: 0 but for the oversize pair (R221). -/
def Result.auxStatus : Result → Byte
  | .pair _ st => st
  | .cmd _ => 0
  | .byte _ => 0
  | .half _ => 0
  | .word _ => 0
  | .code _ => 0

end Sys2Proof.Machine
end

