-- ==== Sys2Proof/Machine/Ops.lean ====
section
/-! DEFINITION. The named operations over the buffers and the registers: reading and storing a byte, publishing,
acting on a decoded byte (`ACCEPT`), entering the receive handler and returning from it, and the consumer's turn. -/

namespace Sys2Proof.Machine

/-- Buffer contents in canonical form: offsets strictly rising, no listed byte zero. -/
def Memory.wf : Memory → Bool
  | [] => true
  | [(_, v)] => v != 0
  | (a, v) :: (b, w) :: rest => v != 0 && decide (a < b) && Memory.wf ((b, w) :: rest)

/-- The byte at an offset; an offset that is not listed reads zero (R36). -/
def Memory.read : Memory → Nat → Byte
  | [], _ => 0
  | (a, v) :: rest, k => if a = k then v else Memory.read rest k

/-- The contents without any entry at an offset. -/
def Memory.erase : Memory → Nat → Memory
  | [], _ => []
  | (a, w) :: rest, k => if a = k then Memory.erase rest k else (a, w) :: Memory.erase rest k

/-- The contents with an entry put before the first larger offset. -/
def Memory.insert : Memory → Nat → Byte → Memory
  | [], k, v => [(k, v)]
  | (a, w) :: rest, k, v => if k < a then (k, v) :: (a, w) :: rest else (a, w) :: Memory.insert rest k v

/-- Store one byte, keeping the canonical form: a zero byte is not listed. -/
def Memory.write (m : Memory) (k : Nat) (v : Byte) : Memory :=
  if v = 0 then m.erase k else (m.erase k).insert k v

/-- `BUF[i]` (R21). -/
def State.buf (s : State) : BufIdx → Memory
  | .b0 => s.buf0
  | .b1 => s.buf1

/-- The state with the contents of `BUF[i]` replaced. -/
def State.setBuf (s : State) (i : BufIdx) (m : Memory) : State :=
  { s with
    buf0 := match i with
      | .b0 => m
      | .b1 => s.buf0
    buf1 := match i with
      | .b0 => s.buf1
      | .b1 => m }

/-- `BUF[i][k]` (R11). -/
def State.byteAt (s : State) (i : BufIdx) (k : Nat) : Byte :=
  (s.buf i).read k

/-- `MemWrite((ACTIVE, CURSOR), 1, v); CURSOR <- CURSOR + 1` (R143, before the capacity test). -/
def storeByte (v : Byte) (s : State) : State :=
  { s.setBuf s.active ((s.buf s.active).write s.cursor v) with cursor := s.cursor + 1 }

/-- Publish and swap (R144): `CMD` names the buffer that was active, whatever it held before. -/
def publish (s : State) : State :=
  { s with cmd := some s.active, active := otherBuf s.active, cursor := 0 }

/-- What `ACCEPT` does with the decoder's next state and outcome (R141, R142, R143). -/
def settle (r : DState × DecOut) (s : State) : State :=
  match r.2 with
  | .none => { s with dstate := r.1 }
  | .byte v =>
    let t := storeByte v { s with dstate := r.1 }
    if t.cursor = t.cfg.cap then publish t else t
  | .done => publish { s with dstate := r.1 }

/-- `ACCEPT(b)` (R141), total and without an enabling condition (R140). -/
def acceptByte (b : Byte) (s : State) : State :=
  settle (slipStep s.cfg s.dstate b) s

/-- `ACCEPT` of each byte of a stream in order: the effect of `FEED` (R93). -/
def acceptAll : List Byte → State → State
  | [], s => s
  | b :: rest, s => acceptAll rest (acceptByte b s)

/-- When the receive handler may be entered (R161). -/
def State.enterEnabled (s : State) : Bool :=
  decide (s.intMode = .idle) && s.irqEn && !s.irqMask && decide (s.rxPend ≠ 0)

/-- Entry to the receive handler (R161, R230): both pending bits cleared together, nothing saved. -/
def enterHandler (s : State) : State :=
  { s with rxPend := 0, intMode := .draining }

/-- Return from the receive handler (R163, R231): nothing restored. -/
def leaveHandler (s : State) : State :=
  { s with intMode := .idle }

/-- Whether the consumer is held off: `HANDLER_EXCLUSIVE` and an invocation in progress (R170). -/
def State.heldOff (s : State) : Bool :=
  s.cfg.handlerExclusive && decide (s.intMode = .draining)

/-- A consumer operation: its effect, if the consumer may move (R170) and is not in the middle of a byte-by-byte
read (log 12). -/
def asConsumer (s : State) (act : Host.Outcome State Fault Refusal) : Host.Outcome State Fault Refusal :=
  if s.conRun.isSome then .refused .consumerBusy
  else if s.heldOff then .refused .consumerHeldOff
  else act

/-- Return a value to the consumer (R92); nothing else changes (R57). -/
def State.answer (s : State) (r : Result) : State :=
  { s with conResult := some r }

end Sys2Proof.Machine
end

