-- ==== Sys2Proof/Machine/Operands.lean ====
section
/-! DEFINITION. Operand forms: the buffer index and the range of a read (R54), the little-endian reads (R10, R53)
and runs of bytes (R204). -/

namespace Sys2Proof.Machine

/-- `le16` (R10). -/
def le16 (b0 b1 : Byte) : Half :=
  BitVec.ofNat 16 (b0.toNat + 256 * b1.toNat)

/-- `le32` (R10). -/
def le32 (b0 b1 b2 b3 : Byte) : Word :=
  BitVec.ofNat 32 (b0.toNat + 256 * b1.toNat + 65536 * b2.toNat + 16777216 * b3.toNat)

/-- The buffer an index operand names, if it names one (R54). -/
def bufIndex : Nat → Option BufIdx
  | 0 => some .b0
  | 1 => some .b1
  | _ + 2 => none

/-- An access to `n` bytes at offset `k` of the buffer that operand `i` names; refused if there is no such buffer
or the range passes `CAP` (R54). -/
def withRange (i k n : Nat) (s : State) (f : BufIdx → Host.Outcome State Fault Refusal) :
    Host.Outcome State Fault Refusal :=
  match bufIndex i with
  | none => .refused .badBufferIndex
  | some x => if s.cfg.cap < k + n then .refused .pastCapacity else f x

/-- `MemRead((i, k), 2)` (R11, R53). -/
def State.halfAt (s : State) (i : BufIdx) (k : Nat) : Half :=
  le16 (s.byteAt i k) (s.byteAt i (k + 1))

/-- `MemRead((i, k), 4)` (R11, R53). -/
def State.wordAt (s : State) (i : BufIdx) (k : Nat) : Word :=
  le32 (s.byteAt i k) (s.byteAt i (k + 1)) (s.byteAt i (k + 2)) (s.byteAt i (k + 3))

/-- `BUF[i][k .. k+n-1]`, in ascending order (R204). -/
def State.bytesAt (s : State) (i : BufIdx) (k n : Nat) : List Byte :=
  (List.range n).map fun j => s.byteAt i (k + j)

/-- `dlen` of the command in a buffer (R51, R190). -/
def State.dlenOf (s : State) (i : BufIdx) : Half :=
  s.halfAt i 2

end Sys2Proof.Machine
end

