-- ==== Sys2Proof/Machine/Validator.lean ====
section
/-! DEFINITION. The validator (R200 to R209): pure functions of the bytes of one buffer and of the configuration. -/

namespace Sys2Proof.Machine

/-- The verdict of `CK.HARDLEN` on a declared length (R203): unsigned, strict. -/
def hardlenVerdict (c : Config) (dlen : Half) : Result :=
  if c.lenLimit < dlen.toNat then .pair (ErrCode.badLen.value c) c.hardlenStatus
  else .pair (ErrCode.ok.value c) 0x00

/-- The verdict of `CK.FIXLEN` on a declared length (R205). -/
def fixlenVerdict (e dlen : Half) : ErrCode :=
  if dlen = e then .ok else .badLen

/-- The verdict of `CK.DATA` (R206) on the checksum field, the declared length, the inner length and the data
bytes. The checksum's verdict is the later one and wins (D23). -/
def dataVerdict (c : Config) (ck : Byte) (dlen : Half) (ilen : Word) (data : List Byte) : ErrCode :=
  if dlen.toNat < c.dataHdr then .badLen
  else if xorsum c data ≠ ck then .badCk
  else if ilen.toNat ≠ dlen.toNat - c.dataHdr then .badLen
  else .ok

/-- The data bytes of a data-carrying command (R88): `dlen - DATA_HDR` of them, after the inner header. -/
def State.dataOf (s : State) (i : BufIdx) : List Byte :=
  s.bytesAt i (hdrLen + s.cfg.dataHdr) ((s.dlenOf i).toNat - s.cfg.dataHdr)

/-- `CK.HARDLEN` (R203). -/
def execCkHardlen (i : Nat) (s : State) : Host.Outcome State Fault Refusal :=
  asConsumer s (withRange i 2 2 s fun x => .next (s.answer (hardlenVerdict s.cfg (s.dlenOf x))))

/-- `CK.SUM` (R204). -/
def execCkSum (i k n : Nat) (s : State) : Host.Outcome State Fault Refusal :=
  asConsumer s (withRange i k n s fun x => .next (s.answer (.byte (xorsum s.cfg (s.bytesAt x k n)))))

/-- `CK.FIXLEN` (R205). -/
def execCkFixlen (i : Nat) (e : Half) (s : State) : Host.Outcome State Fault Refusal :=
  asConsumer s (withRange i 2 2 s fun x =>
    .next (s.answer (.code ((fixlenVerdict e (s.dlenOf x)).value s.cfg))))

/-- `CK.DATA` (R206), refused if `4 + dlen > CAP`. -/
def execCkData (i : Nat) (s : State) : Host.Outcome State Fault Refusal :=
  asConsumer s (withRange i 1 3 s fun x =>
    if s.cfg.cap < hdrLen + (s.dlenOf x).toNat then .refused .dataPastCapacity
    else .next (s.answer (.code
      ((dataVerdict s.cfg (s.byteAt x 1) (s.dlenOf x) (s.wordAt x 4) (s.dataOf x)).value s.cfg))))

end Sys2Proof.Machine
end

