-- ==== Sys2Proof/Machine/ByteRun.lean ====
section
/-! DEFINITION. Multi-byte reads made byte by byte (R56 (c), R185, R186, R204, D16): each byte read is one atomic
step, in ascending offset order, and steps of other agents may fall between (log 12). -/

namespace Sys2Proof.Machine

/-- The buffer operand and the kind of an operation that reads more than one byte. -/
def readKind : Instr → Option (Nat × ReadKind)
  | .rxEnd => none
  | .rxEsc => none
  | .rxEscEnd => none
  | .rxEscEsc => none
  | .rxData _ => none
  | .accept _ => none
  | .intEnter => none
  | .intPop => none
  | .intExit => none
  | .envPush _ => none
  | .envRaise _ => none
  | .cmdPoll => none
  | .cmdTake => none
  | .bufRd8 _ _ => none
  | .bufRd16 i k => some (i, .rd16 k)
  | .bufRd32 i k => some (i, .rd32 k)
  | .hdrOp _ => none
  | .hdrCk _ => none
  | .hdrLen i => some (i, .len)
  | .ckHardlen i => some (i, .hardlen)
  | .ckSum i k n => some (i, .sum k n)
  | .ckFixlen i e => some (i, .fixlen e)
  | .ckData i => some (i, .data)
  | .irqEnable => none
  | .irqMask => none
  | .irqUnmask => none
  | .reset => none

/-- The offset and the length of the range that is checked at the start (R54); for `CK.DATA` the bytes that say
how far the rest reaches. -/
def ReadKind.range : ReadKind → Nat × Nat
  | .rd16 k => (k, 2)
  | .rd32 k => (k, 4)
  | .len => (2, 2)
  | .hardlen => (2, 2)
  | .sum k n => (k, n)
  | .fixlen _ => (2, 2)
  | .data => (1, 3)

/-- Byte `j` of the bytes read so far. -/
def readSoFar (done : List Byte) (j : Nat) : Byte :=
  done.getD j 0

/-- `dlen`, once `CK.DATA` has read offsets 1 to 3. -/
def dlenSoFar (done : List Byte) : Half :=
  le16 (readSoFar done 1) (readSoFar done 2)

/-- The next offset of `CK.DATA` (R206): 1 to 3, then, unless `dlen < DATA_HDR` ended the check, the inner length
at 4 to 7 and the data bytes. -/
def nextDataOffset (c : Config) (done : List Byte) : Option Nat :=
  let m := done.length
  let dlen := (dlenSoFar done).toNat
  if m < 3 then some (1 + m)
  else if dlen < c.dataHdr then none
  else if m < 7 then some (1 + m)
  else if m - 7 < dlen - c.dataHdr then some (hdrLen + c.dataHdr + (m - 7))
  else none

/-- The offset of the next byte to read, or none when all are read. -/
def nextOffset (c : Config) (kind : ReadKind) (done : List Byte) : Option Nat :=
  match kind with
  | .rd16 k => if done.length < 2 then some (k + done.length) else none
  | .rd32 k => if done.length < 4 then some (k + done.length) else none
  | .len => if done.length < 2 then some (2 + done.length) else none
  | .hardlen => if done.length < 2 then some (2 + done.length) else none
  | .sum k n => if done.length < n then some (k + done.length) else none
  | .fixlen _ => if done.length < 2 then some (2 + done.length) else none
  | .data => nextDataOffset c done

/-- The result of an operation from the bytes it has read. -/
def finishRead (c : Config) (kind : ReadKind) (done : List Byte) : Result :=
  match kind with
  | .rd16 _ => .half (le16 (readSoFar done 0) (readSoFar done 1))
  | .rd32 _ => .word (le32 (readSoFar done 0) (readSoFar done 1) (readSoFar done 2) (readSoFar done 3))
  | .len => .half (le16 (readSoFar done 0) (readSoFar done 1))
  | .hardlen => hardlenVerdict c (le16 (readSoFar done 0) (readSoFar done 1))
  | .sum _ _ => .byte (xorsum c done)
  | .fixlen e => .code ((fixlenVerdict e (le16 (readSoFar done 0) (readSoFar done 1))).value c)
  | .data => .code
    ((dataVerdict c (readSoFar done 0) (dlenSoFar done)
      (le32 (readSoFar done 3) (readSoFar done 4) (readSoFar done 5) (readSoFar done 6)) (done.drop 7)).value c)

/-- Whether `CK.DATA` has just learnt a `dlen` that passes `CAP` (R206). -/
def dataPast (c : Config) (r : ByteRun) : Bool :=
  decide (r.kind = .data) && decide (r.done.length = 3) && decide (c.cap < hdrLen + (dlenSoFar r.done).toNat)

/-- Go on with a read: answer when all bytes are read. -/
def settleRead (r : ByteRun) (s : State) : Host.Outcome State Fault Refusal :=
  if dataPast s.cfg r then .refused .dataPastCapacity
  else match nextOffset s.cfg r.kind r.done with
    | none => .next { s.answer (finishRead s.cfg r.kind r.done) with conRun := none }
    | some _ => .next { s with conRun := some r }

/-- The start of a byte-by-byte read; it reads no byte itself. -/
def beginSplit (i : Instr) (s : State) : Host.Outcome State Fault Refusal :=
  match readKind i with
  | none => .refused .notSplittable
  | some (j, kind) =>
    asConsumer s (withRange j kind.range.1 kind.range.2 s fun x => settleRead ⟨kind, x, []⟩ s)

/-- The next byte of the read in progress: the byte that is in the buffer now (R56 (a)). -/
def readNextByte (s : State) : Host.Outcome State Fault Refusal :=
  match s.conRun with
  | none => .refused .noReadInProgress
  | some r =>
    if s.heldOff then .refused .consumerHeldOff
    else match nextOffset s.cfg r.kind r.done with
      | none => settleRead r s
      | some k =>
        if s.cfg.cap ≤ k then .refused .pastCapacity
        else settleRead { r with done := r.done ++ [s.byteAt r.idx k] } s

/-- `n` byte reads with nothing between them. -/
def readBytes : Nat → State → Host.Outcome State Fault Refusal
  | 0, s => .next s
  | n + 1, s =>
    match readNextByte s with
    | .next t => readBytes n t
    | .fault f => .fault f
    | .refused r => .refused r

end Sys2Proof.Machine
end

