-- ==== Sys2Proof/Machine/Consumer.lean ====
section
/-! DEFINITION. The consumer port: the hand-off (R180, R181), buffer reads (R184 to R186), header fields (R188 to
R190). -/

namespace Sys2Proof.Machine

/-- `CMD.POLL` (R180). -/
def execCmdPoll (s : State) : Host.Outcome State Fault Refusal :=
  asConsumer s (.next (s.answer (.cmd s.cmd)))

/-- `CMD.TAKE` (R181, R64): one atomic exchange. -/
def execCmdTake (s : State) : Host.Outcome State Fault Refusal :=
  asConsumer s (.next { s.answer (.cmd s.cmd) with cmd := none })

/-- `BUF.RD8` (R184). -/
def execBufRd8 (i k : Nat) (s : State) : Host.Outcome State Fault Refusal :=
  asConsumer s (withRange i k 1 s fun x => .next (s.answer (.byte (s.byteAt x k))))

/-- `BUF.RD16` (R185). -/
def execBufRd16 (i k : Nat) (s : State) : Host.Outcome State Fault Refusal :=
  asConsumer s (withRange i k 2 s fun x => .next (s.answer (.half (s.halfAt x k))))

/-- `BUF.RD32` (R186). -/
def execBufRd32 (i k : Nat) (s : State) : Host.Outcome State Fault Refusal :=
  asConsumer s (withRange i k 4 s fun x => .next (s.answer (.word (s.wordAt x k))))

/-- `HDR.OP` (R188): the byte at offset 0. -/
def execHdrOp (i : Nat) (s : State) : Host.Outcome State Fault Refusal :=
  asConsumer s (withRange i 0 1 s fun x => .next (s.answer (.byte (s.byteAt x 0))))

/-- `HDR.CK` (R189): the byte at offset 1. -/
def execHdrCk (i : Nat) (s : State) : Host.Outcome State Fault Refusal :=
  asConsumer s (withRange i 1 1 s fun x => .next (s.answer (.byte (s.byteAt x 1))))

/-- `HDR.LEN` (R190): the declared length at offsets 2 and 3. -/
def execHdrLen (i : Nat) (s : State) : Host.Outcome State Fault Refusal :=
  asConsumer s (withRange i 2 2 s fun x => .next (s.answer (.half (s.dlenOf x))))

end Sys2Proof.Machine
end

