-- ==== Sys2Proof/Machine/Control.lean ====
section
/-! DEFINITION. The interrupt enable and mask operations (R226 to R228) and `RESET` (R250). -/

namespace Sys2Proof.Machine

/-- `IRQ.ENABLE` (R226). -/
def execIrqEnable (s : State) : Host.Outcome State Fault Refusal :=
  asConsumer s (.next { s with irqEn := true })

/-- `IRQ.MASK` (R227); it does not nest. -/
def execIrqMask (s : State) : Host.Outcome State Fault Refusal :=
  asConsumer s (.next { s with irqMask := true })

/-- `IRQ.UNMASK` (R228). -/
def execIrqUnmask (s : State) : Host.Outcome State Fault Refusal :=
  asConsumer s (.next { s with irqMask := false })

/-- `RESET` (R250): the start of a run. It has no meaning in mid-run (R250). `RXQ` becomes the run's free
contents, at most `FIFO_DEPTH` bytes; the run's inputs stay. -/
def execReset (s : State) : Host.Outcome State Fault Refusal :=
  match s.phase with
  | .running => .refused .resetInMidRun
  | .beforeReset => .next
    { s with
      buf0 := []
      buf1 := []
      active := .b0
      cursor := 0
      dstate := .noFrame
      cmd := none
      rxPend := 0
      intMode := .idle
      irqEn := false
      irqMask := false
      rxq := s.resetRxq.take s.cfg.fifoDepth
      phase := .running
      conRun := none
      conResult := none }

end Sys2Proof.Machine
end

