-- ==== Sys2Proof/Machine/Intake.lean ====
section
/-! DEFINITION. The intake sequencer (R160 to R163) and the environment's moves (R164 to R166). -/

namespace Sys2Proof.Machine

/-- `INT.ENTER` (R161). -/
def execIntEnter (s : State) : Host.Outcome State Fault Refusal :=
  if s.enterEnabled then .next (enterHandler s) else .refused .enterNotEnabled

/-- `INT.POP` (R162): the head of `RXQ` goes through `ACCEPT`, in the same step. -/
def execIntPop (s : State) : Host.Outcome State Fault Refusal :=
  match s.intMode, s.rxq with
  | .draining, b :: rest => .next (acceptByte b { s with rxq := rest })
  | .draining, [] => .refused .popNotEnabled
  | .idle, _ => .refused .popNotEnabled

/-- `INT.EXIT` (R163). -/
def execIntExit (s : State) : Host.Outcome State Fault Refusal :=
  match s.intMode, s.rxq with
  | .draining, [] => .next (leaveHandler s)
  | .draining, _ :: _ => .refused .exitNotEnabled
  | .idle, _ => .refused .exitNotEnabled

/-- The next byte of the line and the line after it, if it is not exhausted (R15). -/
def Line.next (l : Line) : Option (Byte × Line) :=
  match l.bytes, l.endless with
  | b :: rest, e => some (b, ⟨rest, e⟩)
  | [], some n => some (Config.freeLineByte n, ⟨[], some (n + 1)⟩)
  | [], none => none

/-- No byte is still to arrive (R15). -/
def Line.exhausted (l : Line) : Bool :=
  l.bytes.isEmpty && l.endless.isNone

/-- A byte arrives at the receive queue; at a full queue it is lost (R164, R165). -/
def arrive (b : Byte) (s : State) : List Byte :=
  if s.rxq.length < s.cfg.fifoDepth then s.rxq ++ [b] else s.rxq

/-- `ENV.PUSH` (R164): the next byte of the line arrives and leaves the line. -/
def execEnvPush (b : Byte) (s : State) : Host.Outcome State Fault Refusal :=
  match s.line.next with
  | none => .refused .lineExhausted
  | some (h, rest) => if b = h then .next { s with rxq := arrive b s, line := rest } else .refused .notNextOfLine

/-- The bit of `RX_PEND` that a condition sets (R28). -/
def pendBit : Condition → BitVec 2
  | .data => 0b01
  | .tout => 0b10

/-- `ENV.RAISE` (R166), enabled always. -/
def execEnvRaise (c : Condition) (s : State) : Host.Outcome State Fault Refusal :=
  .next { s with rxPend := s.rxPend ||| pendBit c }

end Sys2Proof.Machine
end

