-- ==== Sys2Proof/Machine/Receive.lean ====
section
/-! DEFINITION. The receive path's operations: `ACCEPT` (R141) and its five byte-class cases (R123 to R127), each
with what `ACCEPT` does with the case's outcome (log 6). -/

namespace Sys2Proof.Machine

/-- `RX.END` (R123). -/
def execRxEnd (s : State) : Host.Outcome State Fault Refusal :=
  .next (settle (caseEnd s.dstate) s)

/-- `RX.ESC` (R124). -/
def execRxEsc (s : State) : Host.Outcome State Fault Refusal :=
  .next (settle (caseEsc s.dstate) s)

/-- `RX.ESC_END` (R125). -/
def execRxEscEnd (s : State) : Host.Outcome State Fault Refusal :=
  .next (settle (caseEscEnd s.cfg s.dstate) s)

/-- `RX.ESC_ESC` (R126). -/
def execRxEscEsc (s : State) : Host.Outcome State Fault Refusal :=
  .next (settle (caseEscEsc s.cfg s.dstate) s)

/-- `RX.DATA` (R127): a byte of the data class; a byte of another class is not its operand (R81). -/
def execRxData (b : Byte) (s : State) : Host.Outcome State Fault Refusal :=
  if classOf s.cfg b = .data then .next (settle (caseData b s.dstate) s) else .refused .codeByte

/-- `ACCEPT` (R141). -/
def execAccept (b : Byte) (s : State) : Host.Outcome State Fault Refusal :=
  .next (acceptByte b s)

end Sys2Proof.Machine
end

