-- ==== Sys2Proof/Machine/Dispatch.lean ====
section
/-! DEFINITION. The meaning of each operation, one arm for each constructor. -/

namespace Sys2Proof.Machine

def exec (i : Instr) (s : State) : Host.Outcome State Fault Refusal :=
  match i with
  | .rxEnd => Sys2Proof.Machine.execRxEnd s
  | .rxEsc => Sys2Proof.Machine.execRxEsc s
  | .rxEscEnd => Sys2Proof.Machine.execRxEscEnd s
  | .rxEscEsc => Sys2Proof.Machine.execRxEscEsc s
  | .rxData b => Sys2Proof.Machine.execRxData b s
  | .accept b => Sys2Proof.Machine.execAccept b s
  | .intEnter => Sys2Proof.Machine.execIntEnter s
  | .intPop => Sys2Proof.Machine.execIntPop s
  | .intExit => Sys2Proof.Machine.execIntExit s
  | .envPush b => Sys2Proof.Machine.execEnvPush b s
  | .envRaise c => Sys2Proof.Machine.execEnvRaise c s
  | .cmdPoll => Sys2Proof.Machine.execCmdPoll s
  | .cmdTake => Sys2Proof.Machine.execCmdTake s
  | .bufRd8 j k => Sys2Proof.Machine.execBufRd8 j k s
  | .bufRd16 j k => Sys2Proof.Machine.execBufRd16 j k s
  | .bufRd32 j k => Sys2Proof.Machine.execBufRd32 j k s
  | .hdrOp j => Sys2Proof.Machine.execHdrOp j s
  | .hdrCk j => Sys2Proof.Machine.execHdrCk j s
  | .hdrLen j => Sys2Proof.Machine.execHdrLen j s
  | .ckHardlen j => Sys2Proof.Machine.execCkHardlen j s
  | .ckSum j k n => Sys2Proof.Machine.execCkSum j k n s
  | .ckFixlen j e => Sys2Proof.Machine.execCkFixlen j e s
  | .ckData j => Sys2Proof.Machine.execCkData j s
  | .irqEnable => Sys2Proof.Machine.execIrqEnable s
  | .irqMask => Sys2Proof.Machine.execIrqMask s
  | .irqUnmask => Sys2Proof.Machine.execIrqUnmask s
  | .reset => Sys2Proof.Machine.execReset s

end Sys2Proof.Machine
end

