-- ==== Sys2Proof/Machine/Schedule.lean ====
section
/-! DEFINITION. Which move comes next (R6, R59, R93) and what a move does. -/

namespace Sys2Proof.Machine

/-- The move made when nothing is scheduled: the order of the notation `FEED` (R93), in which the intake steps are
taken as needed and the bytes of the line arrive one by one; with nothing left to do the consumer goes on with a
read it is in the middle of, or polls (R180). DESIGN CHOICE (log 2). -/
def feedMove (s : State) : Move :=
  match s.phase with
  | .beforeReset => .op .reset
  | .running =>
    match s.intMode with
    | .draining => if s.rxq.isEmpty then .op .intExit else .op .intPop
    | .idle =>
      if s.enterEnabled then .op .intEnter
      else if !s.rxq.isEmpty && decide (s.rxPend = 0) then .op (.envRaise .data)
      else match s.line.next with
        | some (b, _) => .op (.envPush b)
        | none => if s.conRun.isSome then .nextByte else .op .cmdPoll

/-- What a move does: an operation as one atomic step, but `ACCEPT` and its cases only inside `INT.POP` (R140); or
a step of a byte-by-byte read. Before the run's `RESET` only `RESET` is a move (R253). -/
def runMove (m : Move) (s : State) : Host.Outcome State Fault Refusal :=
  match s.phase with
  | .beforeReset => if m = .op .reset then exec .reset s else .refused .beforeReset
  | .running =>
    match m with
    | .op i => if i.insidePop then .refused .onlyInsidePop else exec i s
    | .split i => beginSplit i s
    | .nextByte => readNextByte s

/-- One step: the next scheduled move, or the `FEED` move; a configuration that breaks R8 is refused. -/
def stepMachine (s : State) : Host.Outcome State Fault Refusal :=
  if s.cfg.valid then
    match s.sched with
    | [] => runMove (feedMove s) s
    | m :: rest => runMove m { s with sched := rest }
  else .refused .badConfiguration

/-- The state with a raw byte at the head of `RXQ`, in place of the head it had, the handler draining and nothing
scheduled, so that the next step pops and decodes that byte (log 17). -/
def State.withRawByte (s : State) (b : Byte) : State :=
  { s with phase := .running, intMode := .draining, sched := [], rxq := b :: s.rxq.drop 1 }

/-- A quiescent state (R15). -/
def State.quiescent (s : State) : Bool :=
  s.line.exhausted && s.rxq.isEmpty && decide (s.intMode = .idle) && decide (s.rxPend = 0)

end Sys2Proof.Machine
end

