-- ==== Sys2Proof/Machine/Step.lean ====
section
/-! DEFINITION. The step of the machine, and the placing of a raw byte where the next step takes it. -/

namespace Sys2Proof.Machine

/-- One step of the run (R59). -/
def step : State → Host.Outcome State Fault Refusal :=
  stepMachine

/-- The state whose next step decodes and runs the operation of a table word (log 17). -/
def State.withFetchWord (s : State) (nbits w : Nat) : State :=
  s.withRawByte (tableByte (w % 2 ^ nbits) 0)

end Sys2Proof.Machine
end

