-- ==== Sys2Proof/Safety.lean ====
section
/-! DEFINITION. The terms claims are stated in: the invariant of the block (R34), what storing and publishing change
(R143, R144), where an operation stores, when the consumer may move. -/

namespace Sys2Proof.Machine

/-- Every listed byte of a buffer lies inside it (R50). -/
def Memory.inRange (cap : Nat) (m : Memory) : Prop :=
  ∀ cell ∈ m, cell.1 < cap

/-- A byte-by-byte read that stays inside the buffer: a byte is left to read and lies inside it, the range checked at
the start does (R54), and so does the data of `CK.DATA` once `dlen` is known (R206). -/
def RunOk (c : Config) (r : ByteRun) : Prop :=
  (∃ k, nextOffset c r.kind r.done = some k ∧ k < c.cap) ∧
    r.kind.range.1 + r.kind.range.2 ≤ c.cap ∧
    (r.kind = .data → 3 ≤ r.done.length → hdrLen + (dlenSoFar r.done).toNat ≤ c.cap)

/-- The invariants of R34, for a run that has had its `RESET`. R34 (b) and (d) hold by the types of `dstate` and
`cmd`; the last fields say that the buffers are in canonical form and in range, and that a byte-by-byte read in
progress stays inside its buffer (the model's own, logs 12 and 16). -/
structure RunningInv (s : State) : Prop where
  /-- R34 (a) -/
  cursor_lt : s.cursor < s.cfg.cap
  /-- R34 (c): a pending command is never the active buffer -/
  handoff : s.cmd = none ∨ s.cmd = some (otherBuf s.active)
  /-- R34 (e) -/
  queue : s.rxq.length ≤ s.cfg.fifoDepth
  /-- R34 (f) -/
  outside : s.dstate = .noFrame → s.cursor = 0
  canon0 : Memory.wf s.buf0 = true
  canon1 : Memory.wf s.buf1 = true
  range0 : Memory.inRange s.cfg.cap s.buf0
  range1 : Memory.inRange s.cfg.cap s.buf1
  run : ∀ r, s.conRun = some r → RunOk s.cfg r

/-- The invariant of every state: nothing is asked before the run's `RESET`, which must establish the rest (R253). -/
def Inv (s : State) : Prop :=
  s.phase = .running → RunningInv s

/-- The number of a buffer, as an operand names it. -/
def bufNumber : BufIdx → Nat
  | .b0 => 0
  | .b1 => 1

/-- The consumer may start an operation: it is not held off (R170) and not in the middle of a read. -/
def ConsumerFree (s : State) : Prop :=
  s.conRun = none ∧ s.heldOff = false

/-- Everything but the buffers, `DSTATE`, `CURSOR`, `ACTIVE` and `CMD` is as before: what `ACCEPT` leaves alone
(R141). -/
def OutsideReceiveSame (s t : State) : Prop :=
  t.rxPend = s.rxPend ∧ t.intMode = s.intMode ∧ t.irqEn = s.irqEn ∧ t.irqMask = s.irqMask ∧ t.rxq = s.rxq ∧
    t.cfg = s.cfg ∧ t.line = s.line ∧ t.resetRxq = s.resetRxq ∧ t.sched = s.sched ∧ t.phase = s.phase ∧
    t.conRun = s.conRun ∧ t.conResult = s.conResult

/-- The buffers read as before, byte for byte. -/
def BuffersSame (s t : State) : Prop :=
  ∀ x k, t.byteAt x k = s.byteAt x k

/-- What the outcome `BYTE(v)` does (R141, R143, R144): one byte at (`ACTIVE`, `CURSOR`), the cursor one further,
and publication when it reaches `CAP`. -/
def Stored (s t : State) (v : Byte) (d : DState) : Prop :=
  t.dstate = d ∧ t.byteAt s.active s.cursor = v ∧
    (∀ x k, x ≠ s.active ∨ k ≠ s.cursor → t.byteAt x k = s.byteAt x k) ∧
    (s.cursor + 1 = s.cfg.cap → t.cmd = some s.active ∧ t.active = otherBuf s.active ∧ t.cursor = 0) ∧
    (s.cursor + 1 ≠ s.cfg.cap → t.cmd = s.cmd ∧ t.active = s.active ∧ t.cursor = s.cursor + 1) ∧
    OutsideReceiveSame s t

/-- The state after publication with the decoder in a given state (R144). -/
def publishedState (s : State) (d : DState) : State :=
  { s with dstate := d, cmd := some s.active, active := otherBuf s.active, cursor := 0 }

/-- The raw byte that an operation of the receive path processes (R81, R141, R162). -/
def receivedByte (s : State) : Instr → Option Byte
  | .rxEnd => some s.cfg.endByte
  | .rxEsc => some s.cfg.escByte
  | .rxEscEnd => some s.cfg.escEndByte
  | .rxEscEsc => some s.cfg.escEscByte
  | .rxData b => some b
  | .accept b => some b
  | .intPop => s.rxq.head?
  | .intEnter => none
  | .intExit => none
  | .envPush _ => none
  | .envRaise _ => none
  | .cmdPoll => none
  | .cmdTake => none
  | .bufRd8 _ _ => none
  | .bufRd16 _ _ => none
  | .bufRd32 _ _ => none
  | .hdrOp _ => none
  | .hdrCk _ => none
  | .hdrLen _ => none
  | .ckHardlen _ => none
  | .ckSum _ _ _ => none
  | .ckFixlen _ _ => none
  | .ckData _ => none
  | .irqEnable => none
  | .irqMask => none
  | .irqUnmask => none
  | .reset => none

/-- Where an operation stores a byte: (`ACTIVE`, `CURSOR`) if the decoder yields a byte, else nowhere (R143). -/
def storeAddress (i : Instr) (s : State) : Option (BufIdx × Nat) :=
  match receivedByte s i with
  | none => none
  | some b =>
    match (slipStep s.cfg s.dstate b).2 with
    | .none => none
    | .byte _ => some (s.active, s.cursor)
    | .done => none

/-- The first `n` bytes of the line, or all of them if it has fewer, and the line after them (R15). -/
def Line.split : Nat → Line → List Byte × Line
  | 0, l => ([], l)
  | n + 1, l =>
    match l.next with
    | none => ([], l)
    | some (b, rest) => (b :: (Line.split n rest).1, (Line.split n rest).2)

/-- The bytes an outcome carries: at most one (R121). -/
def outcomeBytes : DecOut → List Byte
  | .none => []
  | .byte v => [v]
  | .done => []

/-- The decoder run over a stream: its last state and the bytes it emits (R120). -/
def slipRun (c : Config) : DState → List Byte → DState × List Byte
  | d, [] => (d, [])
  | d, b :: rest =>
    let r := slipStep c d b
    let q := slipRun c r.1 rest
    (q.1, outcomeBytes r.2 ++ q.2)

/-- The index after `n` swaps (R145). -/
def swapTimes : Nat → BufIdx → BufIdx
  | 0, x => x
  | n + 1, x => swapTimes n (otherBuf x)

end Sys2Proof.Machine
end

