-- ==== Sys2Proof/Certificates/Slice0/Obligations.lean ====
section
/-! DEFINITION. The statements for the provers. -/

open Sys2Proof Sys2Proof.Machine

/-! ### Encoding (30_encoding.md) -/

/-- R81 with the defaults of R7: the classes of the four codes and of some data bytes. -/
def Obligations.TableWordsDecodeToTheirRows : Prop :=
  decodeTableWord 8 0xC0 = some .rxEnd ∧ decodeTableWord 8 0xDB = some .rxEsc ∧
  decodeTableWord 8 0xDC = some .rxEscEnd ∧ decodeTableWord 8 0xDD = some .rxEscEsc ∧
  decodeTableWord 8 0x00 = some (.rxData 0x00) ∧ decodeTableWord 8 0xFF = some (.rxData 0xFF) ∧
  decodeTableWord 8 0xDA = some (.rxData 0xDA) ∧ decodeTableWord 8 0xC1 = some (.rxData 0xC1)

/-- R81: the first matching row of the table gives the class. -/
def Obligations.ByteClassIsFirstMatch : Prop :=
  ∀ (c : Config) (b : Byte),
    (b = c.endByte → classOf c b = .delimiter) ∧
    (b ≠ c.endByte → b = c.escByte → classOf c b = .escape) ∧
    (b ≠ c.endByte → b ≠ c.escByte → b = c.escEndByte → classOf c b = .escEnd) ∧
    (b ≠ c.endByte → b ≠ c.escByte → b ≠ c.escEndByte → b = c.escEscByte → classOf c b = .escEsc) ∧
    (b ≠ c.endByte → b ≠ c.escByte → b ≠ c.escEndByte → b ≠ c.escEscByte → classOf c b = .data)

/-- R80, R81: decoding the byte of a well-formed operation of format B8 gives it back. -/
def Obligations.DecodeOfEncodeIsTheInstruction : Prop :=
  ∀ (c : Config) (i : Instr) (w rest : List Byte), c.valid = true → i.wf c = true → encode c i = some w →
    decode c (w ++ rest) = .ok (i, rest)

/-- R81: what is decoded is well formed and encodes to the byte it came from. -/
def Obligations.EncodeOfDecodeIsTheByte : Prop :=
  ∀ (c : Config) (bs rest : List Byte) (i : Instr), decode c bs = .ok (i, rest) →
    i.wf c = true ∧ ∃ w, encode c i = some w ∧ bs = w ++ rest

/-- R86, the sender's side: the substitutions, no delimiter in a stuffed payload, every escape followed by a code. -/
def Obligations.StuffedPayloadHasNoDelimiter : Prop :=
  ∀ (c : Config), c.valid = true →
    stuff c [c.endByte] = [c.escByte, c.escEndByte] ∧ stuff c [c.escByte] = [c.escByte, c.escEscByte] ∧
    (∀ b, b ≠ c.endByte → b ≠ c.escByte → stuff c [b] = [b]) ∧
    (∀ p q, stuff c (p ++ q) = stuff c p ++ stuff c q) ∧
    (∀ p, c.endByte ∉ stuff c p) ∧
    (∀ p pre post, stuff c p = pre ++ c.escByte :: post →
      ∃ b rest, post = b :: rest ∧ (b = c.escEndByte ∨ b = c.escEscByte))

/-! ### The decoder (41_slip_decoder.md) -/

/-- R122: all fifteen cells of the transition table. -/
def Obligations.SlipStepFollowsTheTable : Prop :=
  ∀ (c : Config), c.valid = true →
    slipStep c .noFrame c.endByte = (.inFrame, .none) ∧
    slipStep c .noFrame c.escByte = (.noFrame, .none) ∧
    slipStep c .noFrame c.escEndByte = (.noFrame, .none) ∧
    slipStep c .noFrame c.escEscByte = (.noFrame, .none) ∧
    slipStep c .inFrame c.endByte = (.noFrame, .done) ∧
    slipStep c .inFrame c.escByte = (.escaping, .none) ∧
    slipStep c .inFrame c.escEndByte = (.inFrame, .byte c.escEndByte) ∧
    slipStep c .inFrame c.escEscByte = (.inFrame, .byte c.escEscByte) ∧
    slipStep c .escaping c.endByte = (.noFrame, .done) ∧
    slipStep c .escaping c.escByte = (.escaping, .none) ∧
    slipStep c .escaping c.escEndByte = (.inFrame, .byte c.endByte) ∧
    slipStep c .escaping c.escEscByte = (.inFrame, .byte c.escByte) ∧
    ∀ b, classOf c b = .data →
      slipStep c .noFrame b = (.noFrame, .none) ∧ slipStep c .inFrame b = (.inFrame, .byte b) ∧
      slipStep c .escaping b = (.escaping, .none)

/-- R128: the five properties of the table. -/
def Obligations.DecoderTableProperties : Prop :=
  ∀ (c : Config), c.valid = true →
    (∀ d b, (outcomeBytes (slipStep c d b).2).length ≤ 1) ∧
    (∀ d b, (slipStep c d b).2 = .done ↔ b = c.endByte ∧ d ≠ .noFrame) ∧
    (∀ d, (slipStep c d c.endByte).1 = if d = .noFrame then .inFrame else .noFrame) ∧
    (∀ b, (slipStep c .noFrame b).1 ≠ .noFrame ↔ b = c.endByte) ∧
    (∀ b, (slipStep c .escaping b).1 ≠ .escaping ↔ b = c.escEndByte ∨ b = c.escEscByte ∨ b = c.endByte) ∧
    (∀ p, slipRun c .inFrame (stuff c p) = (.inFrame, p))

/-! ### The receive path (41_slip_decoder.md, 42_frame_assembly.md) -/

/-- R123, with what `ACCEPT` does with the case's outcome (R141; that a case executed alone is `ACCEPT` of its byte is
the model's reading, log 6). -/
def Obligations.RxEndStartsOrPublishes : Prop :=
  ∀ s : State,
    (s.dstate = .noFrame → exec .rxEnd s = .next { s with dstate := .inFrame }) ∧
    (s.dstate = .inFrame ∨ s.dstate = .escaping → exec .rxEnd s = .next (publishedState s .noFrame))

/-- R124, as `ACCEPT` of the byte (log 6). -/
def Obligations.RxEscOpensAnEscape : Prop :=
  ∀ s : State,
    (s.dstate = .noFrame → exec .rxEsc s = .next s) ∧
    (s.dstate = .inFrame ∨ s.dstate = .escaping → exec .rxEsc s = .next { s with dstate := .escaping })

/-- R125, R126, as `ACCEPT` of the byte (log 6): the two escape codes are data inside a frame, complete an open
escape, and are dropped outside. -/
def Obligations.EscapeCodesAreDataOrSubstitutes : Prop :=
  ∀ s : State,
    (s.dstate = .noFrame → exec .rxEscEnd s = .next s ∧ exec .rxEscEsc s = .next s) ∧
    (s.dstate = .inFrame →
      (∃ t, exec .rxEscEnd s = .next t ∧ Stored s t s.cfg.escEndByte .inFrame) ∧
      ∃ t, exec .rxEscEsc s = .next t ∧ Stored s t s.cfg.escEscByte .inFrame) ∧
    (s.dstate = .escaping →
      (∃ t, exec .rxEscEnd s = .next t ∧ Stored s t s.cfg.endByte .inFrame) ∧
      ∃ t, exec .rxEscEsc s = .next t ∧ Stored s t s.cfg.escByte .inFrame)

/-- R127, as `ACCEPT` of the byte (log 6). -/
def Obligations.RxDataIsStoredOnlyInsideAFrame : Prop :=
  ∀ (s : State) (b : Byte),
    (classOf s.cfg b = .data →
      (s.dstate = .noFrame → exec (.rxData b) s = .next s) ∧
      (s.dstate = .inFrame → ∃ t, exec (.rxData b) s = .next t ∧ Stored s t b .inFrame) ∧
      (s.dstate = .escaping → exec (.rxData b) s = .next s)) ∧
    (classOf s.cfg b ≠ .data → exec (.rxData b) s = .refused .codeByte)

/-- R141: `ACCEPT` assigns the decoder's next state and acts on the outcome; R142: outcome `NONE` changes nothing
else. -/
def Obligations.AcceptActsOnTheOutcome : Prop :=
  ∀ (s : State) (b : Byte),
    ((slipStep s.cfg s.dstate b).2 = .none →
      exec (.accept b) s = .next { s with dstate := (slipStep s.cfg s.dstate b).1 }) ∧
    (∀ v, (slipStep s.cfg s.dstate b).2 = .byte v →
      ∃ t, exec (.accept b) s = .next t ∧ Stored s t v (slipStep s.cfg s.dstate b).1) ∧
    ((slipStep s.cfg s.dstate b).2 = .done →
      exec (.accept b) s = .next (publishedState s (slipStep s.cfg s.dstate b).1))

/-- R143: the store is in range, and the byte that fills the buffer publishes it in the same step, the decoder
staying `IN_FRAME`. -/
def Obligations.FullBufferIsPublishedByForce : Prop :=
  ∀ (s : State) (b v : Byte), RunningInv s → (slipStep s.cfg s.dstate b).2 = .byte v →
    ∃ t, exec (.accept b) s = .next t ∧ s.cursor < s.cfg.cap ∧ t.dstate = .inFrame ∧
      t.byteAt s.active s.cursor = v ∧
      (∀ x k, x ≠ s.active ∨ k ≠ s.cursor → t.byteAt x k = s.byteAt x k) ∧
      (s.cursor + 1 = s.cfg.cap →
        t.cmd = some s.active ∧ t.active = otherBuf s.active ∧ t.cursor = 0 ∧ t.frameReady = true) ∧
      (s.cursor + 1 ≠ s.cfg.cap → t.cmd = s.cmd ∧ t.active = s.active ∧ t.cursor = s.cursor + 1)

/-- R144: publication, by a delimiter or by force, whatever `CMD` held; the new active buffer keeps what it held. -/
def Obligations.PublicationSwapsAndNamesTheBuffer : Prop :=
  ∀ (s : State) (b : Byte),
    ((slipStep s.cfg s.dstate b).2 = .done ∨
      (∃ v, (slipStep s.cfg s.dstate b).2 = .byte v) ∧ s.cursor + 1 = s.cfg.cap) →
    ∃ t, exec (.accept b) s = .next t ∧ t.cmdValid = true ∧ t.cmdIdx = s.active ∧
      t.active = otherBuf s.active ∧ t.cursor = 0 ∧ t.frameReady = true ∧
      t.dstate = (slipStep s.cfg s.dstate b).1 ∧
      (∀ k, t.byteAt (otherBuf s.active) k = s.byteAt (otherBuf s.active) k) ∧ OutsideReceiveSame s t

/-- The frame of every operation but `RESET` on the buffers (R21, R33, R143): a byte that is not the one stored to
reads as before. -/
def Obligations.OnlyTheStoreAddressChanges : Prop :=
  ∀ (i : Instr) (s t : State), s.cfg.valid = true → i ≠ .reset → exec i s = .next t →
    ∀ x k, storeAddress i s ≠ some (x, k) → t.byteAt x k = s.byteAt x k

/-- The frame of the receive path's operations on the registers (R33, R141): `ACCEPT` and its cases leave alone
everything but the buffers, `DSTATE`, `CURSOR`, `ACTIVE` and `CMD`; `INT.POP` also removes the head of `RXQ`. -/
def Obligations.ReceiveOperationsFrame : Prop :=
  ∀ (i : Instr) (s t : State), exec i s = .next t →
    (i.insidePop = true → OutsideReceiveSame s t) ∧
    (i = .intPop → OutsideReceiveSame { s with rxq := s.rxq.tail } t)

/-! ### Intake and environment (43_byte_intake.md) -/

/-- R161. (That an operation that is not enabled is refused by name is the model's form of R12, log 8.) -/
def Obligations.IntEnterClearsPendingAndDrains : Prop :=
  ∀ s : State,
    (s.intMode = .idle ∧ s.irqEn = true ∧ s.irqMask = false ∧ s.rxPend ≠ 0 →
      exec .intEnter s = .next { s with rxPend := 0, intMode := .draining }) ∧
    (¬(s.intMode = .idle ∧ s.irqEn = true ∧ s.irqMask = false ∧ s.rxPend ≠ 0) →
      exec .intEnter s = .refused .enterNotEnabled)

/-- R162: `INT.POP` removes the head of `RXQ` and is `ACCEPT` of it in the same step. (That a pop that is not enabled
is refused by name is the model's form of R12, log 8.) -/
def Obligations.IntPopAcceptsTheHead : Prop :=
  ∀ s : State,
    (∀ b q, s.intMode = .draining → s.rxq = b :: q →
      exec .intPop s = exec (.accept b) { s with rxq := q } ∧ ∃ t, exec .intPop s = .next t ∧ t.rxq = q) ∧
    (s.intMode = .idle ∨ s.rxq = [] → exec .intPop s = .refused .popNotEnabled)

/-- R163: only `INT_MODE` changes, and only on an empty queue. (That an exit that is not enabled is refused by name
is the model's form of R12, log 8.) -/
def Obligations.IntExitOnlyOnEmptyQueue : Prop :=
  ∀ s : State,
    (s.intMode = .draining → s.rxq = [] → exec .intExit s = .next { s with intMode := .idle }) ∧
    (s.intMode = .idle ∨ s.rxq ≠ [] → exec .intExit s = .refused .exitNotEnabled)

/-- R164: the next byte of the line is appended, or lost at a full queue; it leaves the line either way. R15: an
infinite line always has a next byte. (That a byte other than the line's next one is refused, and the form of an
infinite line, whose bytes are free values, are the model's choice, log 9.) -/
def Obligations.EnvPushAppendsOrLoses : Prop :=
  ∀ (s : State) (b : Byte),
    (∀ rest, s.line.next = some (b, rest) → s.rxq.length < s.cfg.fifoDepth →
      exec (.envPush b) s = .next { s with rxq := s.rxq ++ [b], line := rest }) ∧
    (∀ rest, s.line.next = some (b, rest) → s.cfg.fifoDepth ≤ s.rxq.length →
      exec (.envPush b) s = .next { s with line := rest }) ∧
    (∀ h rest, s.line.next = some (h, rest) → b ≠ h → exec (.envPush b) s = .refused .notNextOfLine) ∧
    (s.line.exhausted = true → exec (.envPush b) s = .refused .lineExhausted) ∧
    (∀ x xs e, s.line = ⟨x :: xs, e⟩ → s.line.next = some (x, ⟨xs, e⟩)) ∧
    (∀ n, s.line = ⟨[], some n⟩ → s.line.next = some (Config.freeLineByte n, ⟨[], some (n + 1)⟩)) ∧
    (s.line.exhausted = true ↔ s.line = ⟨[], none⟩)

/-- R166: one bit is set, the other stays. -/
def Obligations.EnvRaiseSetsOnePendingBit : Prop :=
  ∀ (s : State) (c : Condition),
    ∃ p, exec (.envRaise c) s = .next { s with rxPend := p } ∧
      p.getLsbD 0 = (s.rxPend.getLsbD 0 || decide (c = .data)) ∧
      p.getLsbD 1 = (s.rxPend.getLsbD 1 || decide (c = .tout))

/-! ### The consumer port (44_consumer_port.md)

The value an operation returns stands in `conResult`, the model's own record of it (log 5). `ConsumerFree` says that
the consumer may move: it is not held off (R170) and not in the middle of a read made byte by byte (log 12). -/

/-- R180, R181: the poll returns `CMD` and changes nothing; the take returns it and clears it in one step. -/
def Obligations.PollReadsAndTakeExchanges : Prop :=
  ∀ s : State, ConsumerFree s →
    exec .cmdPoll s = .next { s with conResult := some (.cmd s.cmd) } ∧
    ∃ t, exec .cmdTake s = .next t ∧ t = { s with cmd := none, conResult := some (.cmd s.cmd) } ∧
      t.cmdValid = false ∧ t.cmdIdx = .b0 ∧ t.frameReady = false

/-- R184: the byte that is in the buffer now; any other buffer or offset is refused. -/
def Obligations.BufRd8ReturnsTheByte : Prop :=
  ∀ (s : State) (x : BufIdx) (k : Nat), ConsumerFree s →
    (k < s.cfg.cap →
      exec (.bufRd8 (bufNumber x) k) s = .next { s with conResult := some (.byte (s.byteAt x k)) }) ∧
    (s.cfg.cap ≤ k → exec (.bufRd8 (bufNumber x) k) s = .refused .pastCapacity) ∧
    ∀ i, 2 ≤ i → exec (.bufRd8 i k) s = .refused .badBufferIndex

/-- R185: two bytes, the lower offset the less significant. -/
def Obligations.BufRd16IsLittleEndian : Prop :=
  ∀ (s : State) (x : BufIdx) (k : Nat), ConsumerFree s →
    (k + 2 ≤ s.cfg.cap →
      ∃ v : Half, exec (.bufRd16 (bufNumber x) k) s = .next { s with conResult := some (.half v) } ∧
        v.toNat = (s.byteAt x k).toNat + 256 * (s.byteAt x (k + 1)).toNat) ∧
    (s.cfg.cap < k + 2 → exec (.bufRd16 (bufNumber x) k) s = .refused .pastCapacity) ∧
    ∀ i, 2 ≤ i → exec (.bufRd16 i k) s = .refused .badBufferIndex

/-- R186: four bytes, the lowest offset the least significant. -/
def Obligations.BufRd32IsLittleEndian : Prop :=
  ∀ (s : State) (x : BufIdx) (k : Nat), ConsumerFree s →
    (k + 4 ≤ s.cfg.cap →
      ∃ v : Word, exec (.bufRd32 (bufNumber x) k) s = .next { s with conResult := some (.word v) } ∧
        v.toNat = (s.byteAt x k).toNat + 256 * (s.byteAt x (k + 1)).toNat +
          65536 * (s.byteAt x (k + 2)).toNat + 16777216 * (s.byteAt x (k + 3)).toNat) ∧
    (s.cfg.cap < k + 4 → exec (.bufRd32 (bufNumber x) k) s = .refused .pastCapacity) ∧
    ∀ i, 2 ≤ i → exec (.bufRd32 i k) s = .refused .badBufferIndex

/-- R188, R189, R190: the header fields, under R8 (b), which puts them inside the buffer. -/
def Obligations.HeaderFieldsAreAtTheirOffsets : Prop :=
  ∀ (s : State) (x : BufIdx), ConsumerFree s → s.cfg.valid = true →
    exec (.hdrOp (bufNumber x)) s = .next { s with conResult := some (.byte (s.byteAt x 0)) } ∧
    exec (.hdrCk (bufNumber x)) s = .next { s with conResult := some (.byte (s.byteAt x 1)) } ∧
    (∃ v : Half, exec (.hdrLen (bufNumber x)) s = .next { s with conResult := some (.half v) } ∧
      v.toNat = (s.byteAt x 2).toNat + 256 * (s.byteAt x 3).toNat) ∧
    ∀ i, 2 ≤ i → exec (.hdrOp i) s = .refused .badBufferIndex ∧ exec (.hdrCk i) s = .refused .badBufferIndex ∧
      exec (.hdrLen i) s = .refused .badBufferIndex

/-- R57: a read of the consumer changes nothing but the value it hands the consumer (the field `conResult`, the
model's own record of it, log 5), and made again it answers the same. -/
def Obligations.ConsumerReadsAreRepeatable : Prop :=
  ∀ (i : Instr) (s t : State), i.agent = .con → i ≠ .cmdTake → i ≠ .irqEnable → i ≠ .irqMask → i ≠ .irqUnmask →
    exec i s = .next t → t = { s with conResult := t.conResult } ∧ exec i t = .next t

/-! ### The validator (40_checksum.md, 45_validator.md) -/

/-- R110: the seed, then each byte in order; the corner cases. -/
def Obligations.XorsumFoldsTheBytes : Prop :=
  ∀ (c : Config) (s : List Byte) (b : Byte),
    xorsum c [] = c.ckInit ∧ xorsum c (s ++ [b]) = xorsum c s ^^^ b ∧ xorsum c [b] = c.ckInit ^^^ b ∧
    xorsum c [c.ckInit] = 0

/-- R111: bit by bit a parity; (a) to (d). -/
def Obligations.XorsumLaws : Prop :=
  ∀ (c : Config),
    (∀ (s : List Byte) (j : Nat), (xorsum c s).getLsbD j =
      (c.ckInit.getLsbD j != decide ((s.filter fun b => b.getLsbD j).length % 2 = 1))) ∧
    (∀ s t : List Byte, s.Perm t → xorsum c s = xorsum c t) ∧
    (∀ s t : List Byte, xorsum c (s ++ t) = xorsum c s ^^^ xorsum c t ^^^ c.ckInit) ∧
    (∀ s : List Byte, xorsum c (s ++ [0x00]) = xorsum c s) ∧
    (∀ (s : List Byte) (b : Byte), xorsum c (s ++ [b, b]) = xorsum c s)

/-- R112: a change of one byte is always seen; a swap, a common mask on two bytes, or bytes that cancel are not. -/
def Obligations.XorsumDetectsExactlyOneByteChanges : Prop :=
  ∀ (c : Config) (p q r : List Byte) (a b m : Byte),
    (a ≠ b → xorsum c (p ++ a :: q) ≠ xorsum c (p ++ b :: q)) ∧
    xorsum c (p ++ a :: q ++ b :: r) = xorsum c (p ++ b :: q ++ a :: r) ∧
    xorsum c (p ++ a :: q ++ b :: r) = xorsum c (p ++ (a ^^^ m) :: q ++ (b ^^^ m) :: r) ∧
    xorsum c (p ++ a :: q ++ a :: r) = xorsum c (p ++ q ++ r)

/-- R203: the comparison of the declared length with `LEN_LIMIT` is unsigned and strict. -/
def Obligations.CkHardlenRejectsOversize : Prop :=
  ∀ (s : State) (x : BufIdx), ConsumerFree s → s.cfg.valid = true →
    ((s.byteAt x 2).toNat + 256 * (s.byteAt x 3).toNat > s.cfg.lenLimit →
      exec (.ckHardlen (bufNumber x)) s =
        .next { s with conResult := some (.pair s.cfg.eBadLen s.cfg.hardlenStatus) }) ∧
    ((s.byteAt x 2).toNat + 256 * (s.byteAt x 3).toNat ≤ s.cfg.lenLimit →
      exec (.ckHardlen (bufNumber x)) s = .next { s with conResult := some (.pair s.cfg.eOk 0x00) }) ∧
    ∀ i, 2 ≤ i → exec (.ckHardlen i) s = .refused .badBufferIndex

/-- R204: the checksum of the range in ascending order, the empty range included. -/
def Obligations.CkSumIsTheXorsumOfTheRange : Prop :=
  ∀ (s : State) (x : BufIdx) (k n : Nat), ConsumerFree s →
    (k + n ≤ s.cfg.cap →
      ∃ bs : List Byte, bs.length = n ∧ (∀ j, j < n → bs[j]? = some (s.byteAt x (k + j))) ∧
        exec (.ckSum (bufNumber x) k n) s = .next { s with conResult := some (.byte (xorsum s.cfg bs)) }) ∧
    (s.cfg.cap < k + n → exec (.ckSum (bufNumber x) k n) s = .refused .pastCapacity) ∧
    ∀ i, 2 ≤ i → exec (.ckSum i k n) s = .refused .badBufferIndex

/-- R205: exact equality of the declared with the expected length. -/
def Obligations.CkFixlenComparesTheDeclaredLength : Prop :=
  ∀ (s : State) (x : BufIdx) (e : Half), ConsumerFree s → s.cfg.valid = true →
    ((s.byteAt x 2).toNat + 256 * (s.byteAt x 3).toNat = e.toNat →
      exec (.ckFixlen (bufNumber x) e) s = .next { s with conResult := some (.code s.cfg.eOk) }) ∧
    ((s.byteAt x 2).toNat + 256 * (s.byteAt x 3).toNat ≠ e.toNat →
      exec (.ckFixlen (bufNumber x) e) s = .next { s with conResult := some (.code s.cfg.eBadLen) }) ∧
    ∀ i, 2 ≤ i → exec (.ckFixlen i e) s = .refused .badBufferIndex

/-- R206: the data-frame check, with its early return and the later verdict winning. -/
def Obligations.CkDataChecksLengthAndChecksum : Prop :=
  ∀ (s : State) (x : BufIdx) (dlen ilen : Nat), ConsumerFree s → s.cfg.valid = true →
    dlen = (s.byteAt x 2).toNat + 256 * (s.byteAt x 3).toNat →
    ilen = (s.byteAt x 4).toNat + 256 * (s.byteAt x 5).toNat + 65536 * (s.byteAt x 6).toNat +
      16777216 * (s.byteAt x 7).toNat →
    (s.cfg.cap < 4 + dlen → exec (.ckData (bufNumber x)) s = .refused .dataPastCapacity) ∧
    (4 + dlen ≤ s.cfg.cap → dlen < s.cfg.dataHdr →
      exec (.ckData (bufNumber x)) s = .next { s with conResult := some (.code s.cfg.eBadLen) }) ∧
    (4 + dlen ≤ s.cfg.cap → s.cfg.dataHdr ≤ dlen →
      ∃ bs : List Byte, bs.length = dlen - s.cfg.dataHdr ∧
        (∀ j, j < dlen - s.cfg.dataHdr → bs[j]? = some (s.byteAt x (4 + s.cfg.dataHdr + j))) ∧
        exec (.ckData (bufNumber x)) s = .next { s with conResult := some (.code
          (if xorsum s.cfg bs ≠ s.byteAt x 1 then s.cfg.eBadCk
           else if ilen ≠ dlen - s.cfg.dataHdr then s.cfg.eBadLen
           else s.cfg.eOk)) }) ∧
    ∀ i, 2 ≤ i → exec (.ckData i) s = .refused .badBufferIndex

/-- R203 (e): what passes the oversize check is not refused by the data check. -/
def Obligations.HardlenPassKeepsDataCheckInRange : Prop :=
  ∀ (s t : State) (i : Nat) (st : Byte), s.cfg.valid = true → exec (.ckHardlen i) s = .next t →
    t.conResult = some (.pair s.cfg.eOk st) → ∃ u code, exec (.ckData i) s = .next u ∧
      u = { s with conResult := some (.code code) }

/-! ### Interrupt control and reset (60_exceptions.md, 70_reset_and_hazards.md) -/

/-- R226, R227, R228: the three operations, and what they do to the enabling of `INT.ENTER`. -/
def Obligations.InterruptControlBits : Prop :=
  ∀ s : State, ConsumerFree s →
    exec .irqEnable s = .next { s with irqEn := true } ∧
    exec .irqMask s = .next { s with irqMask := true } ∧
    exec .irqUnmask s = .next { s with irqMask := false } ∧
    exec .intEnter { s with irqMask := true } = .refused .enterNotEnabled ∧
    (s.rxPend ≠ 0 → s.irqEn = true → s.intMode = .idle →
      ∃ t, exec .intEnter { s with irqMask := false } = .next t) ∧
    (s.rxPend ≠ 0 → s.irqMask = false → s.intMode = .idle →
      ∃ t, exec .intEnter { s with irqEn := true } = .next t)

/-- R250: `RESET` at the start of a run gives the reset state, with any queue contents of at most `FIFO_DEPTH`
bytes (the run's input `resetRxq`, for every value of it; log 10). -/
def Obligations.ResetGivesTheResetState : Prop :=
  ∀ s : State, s.phase = .beforeReset →
    exec .reset s = .next (State.resetWith s.cfg s.resetRxq s.line s.sched) ∧
    (State.resetWith s.cfg s.resetRxq s.line s.sched).rxq.length ≤ s.cfg.fifoDepth

/-- R36: the reset values; `RXQ` is left open. -/
def Obligations.ResetValues : Prop :=
  ∀ (c : Config) (q : List Byte) (line : Line) (m : List Move),
    let s := State.resetWith c q line m
    (∀ x k, s.byteAt x k = 0) ∧ s.active = .b0 ∧ s.cursor = 0 ∧ s.dstate = .noFrame ∧ s.cmd = none ∧
      s.rxPend = 0 ∧ s.intMode = .idle ∧ s.irqEn = false ∧ s.irqMask = false ∧ s.frameReady = false

/-- R250, R253: `RESET` has no meaning in mid-run, and nothing else has one before it. -/
def Obligations.RunStartsWithOneReset : Prop :=
  ∀ (s : State) (m : Move) (rest : List Move), s.cfg.valid = true → s.sched = m :: rest →
    (s.phase = .running → m = .op .reset → step s = .refused .resetInMidRun) ∧
    (s.phase = .beforeReset → m ≠ .op .reset → step s = .refused .beforeReset) ∧
    (s.phase = .beforeReset → m = .op .reset →
      step s = .next (State.resetWith s.cfg s.resetRxq s.line rest))

/-! ### Whole-machine rules -/

/-- R8: a configuration that breaks one of the six constraints is refused, in every state. -/
def Obligations.BrokenConfigurationIsRefused : Prop :=
  ∀ s : State,
    (¬[s.cfg.endByte, s.cfg.escByte, s.cfg.escEndByte, s.cfg.escEscByte].Nodup ∨
      s.cfg.cap < 4 + s.cfg.lenLimit ∨ s.cfg.lenLimit < s.cfg.dataHdr ∨ 0xFFFF < s.cfg.lenLimit ∨
      ¬[s.cfg.eOk, s.cfg.eBadLen, s.cfg.eBadCk, s.cfg.eNotInFlash, s.cfg.eNotImpl].Nodup ∨ s.cfg.dataHdr < 4) →
    step s = .refused .badConfiguration

/-- A step runs the scheduled operation (R12, R59); `ACCEPT` and its cases only inside `INT.POP` (R140); or it starts
a read made byte by byte, or reads the next byte of one (R56 (c), log 12). The list of moves is the model's own form of
the run's order (log 1). -/
def Obligations.ScheduledOperationRuns : Prop :=
  ∀ (s : State) (i : Instr) (rest : List Move), s.cfg.valid = true → s.phase = .running →
    (s.sched = .op i :: rest → i.insidePop = false → step s = exec i { s with sched := rest }) ∧
    (s.sched = .op i :: rest → i.insidePop = true → step s = .refused .onlyInsidePop) ∧
    (s.sched = .split i :: rest → step s = beginSplit i { s with sched := rest }) ∧
    (s.sched = .nextByte :: rest → step s = readNextByte { s with sched := rest })

/-- A step runs the decoded operation: draining, with a byte at the head of `RXQ`, a step that pops is the decoded
operation at the state without that byte (R80, R141, R162). With the pop scheduled this follows the run's order (R59,
log 1); that the step pops with nothing scheduled is the model's choice (log 2). -/
def Obligations.PopRunsTheDecodedByte : Prop :=
  ∀ (s : State) (q rest : List Byte) (i : Instr), s.cfg.valid = true → s.phase = .running →
    s.intMode = .draining → s.rxq ≠ [] → decode s.cfg s.rxq = .ok (i, rest) → q = s.rxq.tail →
    rest = q ∧ i.wf s.cfg = true ∧
    (s.sched = [] → step s = exec i { s with rxq := q }) ∧
    ∀ m, s.sched = .op .intPop :: m → step s = exec i { s with rxq := q, sched := m }

/-- The invariant holds in the state after reset, whatever the run's inputs, and in `State.reset`. -/
def Obligations.ResetStateSatisfiesInvariant : Prop :=
  (∀ (c : Config) (q : List Byte) (line : Line) (m : List Move), c.valid = true →
    Inv (State.resetWith c q line m)) ∧
  Inv State.reset

/-- R34: every step keeps the invariant, from every state that meets it. -/
def Obligations.StepKeepsTheInvariant : Prop :=
  ∀ s t : State, Inv s → step s = .next t → Inv t

/-- R33: each agent's operations write only what the access table allows them: of the buffers, the receive path only
the byte at `CURSOR` of the buffer that is `ACTIVE`, the others none. -/
def Obligations.AgentsKeepTheirAccessRights : Prop :=
  ∀ (i : Instr) (s t : State), exec i s = .next t →
    (i.agent = .con → BuffersSame s t ∧ t.active = s.active ∧ t.cursor = s.cursor ∧ t.dstate = s.dstate ∧
      (t.cmd = s.cmd ∨ t.cmd = none) ∧ t.rxPend = s.rxPend ∧ t.intMode = s.intMode ∧
      (s.irqEn = true → t.irqEn = true) ∧ t.rxq = s.rxq ∧ t.line = s.line) ∧
    (i.agent = .rx → (∀ x k, x ≠ s.active ∨ k ≠ s.cursor → t.byteAt x k = s.byteAt x k) ∧
      t.irqEn = s.irqEn ∧ t.irqMask = s.irqMask ∧ (t.cmd = s.cmd ∨ t.cmd = some s.active) ∧
      (t.rxPend = s.rxPend ∨ t.rxPend = 0) ∧ (t.rxq = s.rxq ∨ t.rxq = s.rxq.tail) ∧ t.line = s.line ∧
      t.conRun = s.conRun ∧ t.conResult = s.conResult) ∧
    (i.agent = .env → BuffersSame s t ∧ t.active = s.active ∧ t.cursor = s.cursor ∧ t.dstate = s.dstate ∧
      t.cmd = s.cmd ∧ t.intMode = s.intMode ∧ t.irqEn = s.irqEn ∧ t.irqMask = s.irqMask ∧
      (∀ j, s.rxPend.getLsbD j = true → t.rxPend.getLsbD j = true) ∧
      (t.rxq = s.rxq ∨ ∃ b, t.rxq = s.rxq ++ [b]) ∧ (t.line = s.line ∨ ∃ b, s.line.next = some (b, t.line)) ∧
      t.conRun = s.conRun ∧ t.conResult = s.conResult)

/-- R21: during a run a step changes at most one byte, the one at `CURSOR` of the buffer that is `ACTIVE`. -/
def Obligations.StepWritesOnlyTheActiveBuffer : Prop :=
  ∀ s t : State, s.phase = .running → step s = .next t →
    ∀ x k, x ≠ s.active ∨ k ≠ s.cursor → t.byteAt x k = s.byteAt x k

/-- R22, R27, R145: `ACTIVE` changes exactly with a publication, which names the old active buffer and raises
`FRAME_READY`; otherwise `CMD` stays or is cleared. -/
def Obligations.ActiveChangesOnlyByPublication : Prop :=
  ∀ s t : State, s.phase = .running → step s = .next t →
    (t.active = s.active ∧ (t.cmd = s.cmd ∨ t.cmd = none)) ∨
    (t.active = otherBuf s.active ∧ t.cmd = some s.active ∧ t.cursor = 0 ∧ t.frameReady = true)

/-- R170: with `HANDLER_EXCLUSIVE` no consumer operation is enabled during an invocation, and the switch changes no
operation's effect. -/
def Obligations.HandlerExclusiveChangesOnlyEnabling : Prop :=
  (∀ (i : Instr) (s : State), i.agent = .con → s.conRun = none → s.cfg.handlerExclusive = true →
    s.intMode = .draining → exec i s = .refused .consumerHeldOff) ∧
  (∀ (i : Instr) (s t : State) (w : Bool), exec i s = .next t →
    (i.agent = .con → w = false ∨ s.intMode = .idle) →
    exec i { s with cfg := { s.cfg with handlerExclusive := w } } =
      .next { t with cfg := { t.cfg with handlerExclusive := w } })

/-- R15: in a quiescent state no step of the receive path is enabled, and, with nothing scheduled, the machine only
polls (the poll is the model's choice, log 2). -/
def Obligations.QuiescentMachineOnlyPolls : Prop :=
  ∀ s : State, s.quiescent = true →
    exec .intEnter s = .refused .enterNotEnabled ∧ exec .intPop s = .refused .popNotEnabled ∧
    exec .intExit s = .refused .exitNotEnabled ∧
    (s.cfg.valid = true → s.phase = .running → s.sched = [] → s.conRun = none →
      step s = .next { s with conResult := some (.cmd s.cmd) })

/-- R140, R220: with nothing scheduled and no read in progress, every step of a valid configuration completes. (The
order of unscheduled moves is the model's, log 2.) -/
def Obligations.UnscheduledStepCompletes : Prop :=
  ∀ s : State, s.cfg.valid = true → s.sched = [] → s.conRun = none → ∃ t, step s = .next t

/-! ### Frames and streams -/

/-- R86, the round trip: from outside a frame, a framed payload shorter than a buffer is stored exactly and
published on the last byte, with no earlier publication; the rest of that buffer and all of the other keep what they
held. -/
def Obligations.FramedPayloadRoundTrip : Prop :=
  ∀ (s : State) (p : List Byte), s.cfg.valid = true → s.dstate = .noFrame → s.cursor = 0 → p.length < s.cfg.cap →
    let m := acceptAll (s.cfg.endByte :: stuff s.cfg p) s
    let t := acceptAll (frame s.cfg p) s
    (∀ pre post, s.cfg.endByte :: stuff s.cfg p = pre ++ post →
      (acceptAll pre s).cmd = s.cmd ∧ (acceptAll pre s).active = s.active) ∧
    m.cursor = p.length ∧ m.dstate = .inFrame ∧
    t.cmd = some s.active ∧ t.active = otherBuf s.active ∧ t.cursor = 0 ∧ t.dstate = .noFrame ∧
    (∀ k, k < p.length → p[k]? = some (t.byteAt s.active k)) ∧
    (∀ k, p.length ≤ k → t.byteAt s.active k = s.byteAt s.active k) ∧
    (∀ k, t.byteAt (otherBuf s.active) k = s.byteAt (otherBuf s.active) k) ∧ OutsideReceiveSame s t

/-- R147: before its closing delimiter an over-long frame of `n` decoded bytes has published `n / CAP` full buffers,
in alternation, the last of them in the buffer that `CMD` names, and left `n mod CAP` bytes behind the cursor, still
inside the frame; its `END` publishes those as a frame of their own. -/
def Obligations.OverlongFrameIsCutIntoPieces : Prop :=
  ∀ (s : State) (p : List Byte), s.cfg.valid = true → s.dstate = .noFrame → s.cursor = 0 →
    let t := acceptAll (s.cfg.endByte :: stuff s.cfg p) s
    t.dstate = .inFrame ∧ t.cursor = p.length % s.cfg.cap ∧
    t.active = swapTimes (p.length / s.cfg.cap) s.active ∧
    (p.length < s.cfg.cap → t.cmd = s.cmd) ∧
    (s.cfg.cap ≤ p.length → t.cmd = some (otherBuf t.active)) ∧
    (∀ j, j < p.length % s.cfg.cap →
      p[p.length / s.cfg.cap * s.cfg.cap + j]? = some (t.byteAt t.active j)) ∧
    (s.cfg.cap ≤ p.length → ∀ j, j < s.cfg.cap →
      p[(p.length / s.cfg.cap - 1) * s.cfg.cap + j]? = some (t.byteAt (otherBuf t.active) j)) ∧
    acceptAll (frame s.cfg p) s = publishedState t .noFrame ∧ OutsideReceiveSame s t

/-- R268: out of phase, a well-formed frame causes one publication of what was collected, stores nothing, and
leaves the decoder out of phase. -/
def Obligations.OutOfPhaseFrameIsLost : Prop :=
  ∀ (s : State) (p : List Byte), s.cfg.valid = true → s.dstate ≠ .noFrame →
    acceptAll (frame s.cfg p) s = publishedState s .inFrame

/-- R267: after any damage that leaves the number of delimiters alone, the closing delimiter brings the decoder back
outside a frame with the cursor at zero. -/
def Obligations.DamagedFrameResynchronises : Prop :=
  ∀ (s : State) (junk : List Byte), s.dstate = .noFrame → s.cfg.endByte ∉ junk →
    let t := acceptAll (s.cfg.endByte :: junk ++ [s.cfg.endByte]) s
    t.dstate = .noFrame ∧ t.cursor = 0 ∧ t.cmd = some (otherBuf t.active)

/-- R272: bytes without a delimiter, outside a frame, change nothing. -/
def Obligations.NoiseOutsideFramesIsDropped : Prop :=
  ∀ (s : State) (noise : List Byte), s.dstate = .noFrame → s.cfg.endByte ∉ noise → acceptAll noise s = s

/-- R160, R162, R163, R167: an invocation with nothing between its steps accepts the whole queue in order and then
leaves the handler. (That the intake's steps come one after another with nothing scheduled is the model's choice, log
2.) -/
def Obligations.InvocationDrainsTheQueueInOrder : Prop :=
  ∀ s : State, s.cfg.valid = true → s.phase = .running → s.sched = [] → s.intMode = .draining →
    Host.Core.run Sys2Proof.core (s.rxq.length + 1) s =
      .next { acceptAll s.rxq { s with rxq := [] } with intMode := .idle }

/-- R93, R164 to R167: with nothing scheduled and the interrupt enabled, the machine delivers its line to `ACCEPT`,
byte for byte and in order: all of a finite line, after which it is quiescent, and any number of bytes of an infinite
one (R15). (The unscheduled order is the model's, log 2: it is the order of the notation `FEED`. An infinite line's
bytes are free values, log 9.) -/
def Obligations.FeedDeliversTheWholeLine : Prop :=
  ∀ (s : State) (n : Nat), s.cfg.valid = true → s.phase = .running → s.sched = [] → s.intMode = .idle →
    s.irqEn = true → s.irqMask = false → s.rxPend = 0 → s.rxq = [] →
    let bs := (s.line.split n).1
    let rest := (s.line.split n).2
    let t := acceptAll bs { s with line := rest }
    Host.Core.run Sys2Proof.core (5 * bs.length) s = .next t ∧
    (∀ l, s.line = ⟨l, none⟩ → n = l.length → bs = l ∧ t.quiescent = true) ∧
    (s.line.endless ≠ none → bs.length = n ∧ t.quiescent = false)

/-- R88, R94, R206: a well-formed data-carrying request, received as a frame, passes the oversize check and the
data-frame check on the buffer that was published. -/
def Obligations.WellFormedDataRequestPassesItsChecks : Prop :=
  ∀ (s : State) (op : Byte) (h x : List Byte), s.cfg.valid = true → ConsumerFree s → s.dstate = .noFrame →
    s.cursor = 0 → h.length + 4 = s.cfg.dataHdr → s.cfg.dataHdr + x.length ≤ s.cfg.lenLimit →
    4 + s.cfg.dataHdr + x.length < s.cfg.cap →
    let t := acceptAll (frame s.cfg (dataRequest s.cfg op h x)) s
    t.cmd = some s.active ∧
    exec (.ckHardlen (bufNumber s.active)) t = .next { t with conResult := some (.pair s.cfg.eOk 0) } ∧
    exec (.ckData (bufNumber s.active)) t = .next { t with conResult := some (.code s.cfg.eOk) }

/-! ### Reads made byte by byte (20_memory.md R56) -/

/-- R56 (a), (c), R206: the next byte of a read in progress is the byte the buffer holds now, whatever was stored
since the read began; offsets ascend; `CK.DATA` is refused when the byte makes a `dlen` known that passes `CAP`; the
consumer makes no other operation before the read is done. (The fields that hold a read in progress, the order of the
bytes of `CK.DATA` and this last are the model's own, log 12; that `HANDLER_EXCLUSIVE` holds off byte reads, log 14.) -/
def Obligations.NextByteReadsTheBufferNow : Prop :=
  ∀ (s : State) (r : ByteRun) (k : Nat), s.conRun = some r → nextOffset s.cfg r.kind r.done = some k →
    let done := r.done ++ [s.byteAt r.idx k]
    (s.heldOff = true → readNextByte s = .refused .consumerHeldOff) ∧
    (s.heldOff = false → (∀ i : Instr, i.agent = .con → exec i s = .refused .consumerBusy) ∧
      (s.cfg.cap ≤ k → readNextByte s = .refused .pastCapacity) ∧
      (k < s.cfg.cap →
        (readNextByte s = .refused .dataPastCapacity ↔ dataPast s.cfg { r with done := done } = true) ∧
        (dataPast s.cfg { r with done := done } = false → nextOffset s.cfg r.kind done = none →
          readNextByte s = .next { s with conRun := none, conResult := some (finishRead s.cfg r.kind done) }) ∧
        (dataPast s.cfg { r with done := done } = false → nextOffset s.cfg r.kind done ≠ none →
          readNextByte s = .next { s with conRun := some { r with done := done } }))) ∧
    (dataPast s.cfg { r with done := done } = true ↔
      r.kind = .data ∧ ∃ a b c : Byte, done = [a, b, c] ∧ s.cfg.cap < 4 + (b.toNat + 256 * c.toNat)) ∧
    (s.cfg.valid = true → ∀ k', nextOffset s.cfg r.kind done = some k' → k < k')

/-- R56 (c): every multi-byte read of the consumer has a byte-by-byte form, which, with nothing between its bytes,
behaves as if atomic. -/
def Obligations.SplitReadAgreesWithAtomicRead : Prop :=
  ∀ (s t : State) (i : Instr), s.cfg.valid = true →
    ((∃ j k, i = .bufRd16 j k) ∨ (∃ j k, i = .bufRd32 j k) ∨ (∃ j, i = .hdrLen j) ∨ (∃ j, i = .ckHardlen j) ∨
      (∃ j k n, i = .ckSum j k n) ∨ (∃ j e, i = .ckFixlen j e) ∨ ∃ j, i = .ckData j) →
    exec i s = .next t → ∃ u n, beginSplit i s = .next u ∧ readBytes n u = .next t
end

