-- ==== Sys2Proof/Laws/State.lean ====
section
/-! SUPPORT. One lemma for each field of each named update of the state, true by computation. -/

namespace Sys2Proof.Machine

/-! ### Replacing a buffer -/

@[simp] theorem setBuf_active (s : State) (i : BufIdx) (m : Memory) : (s.setBuf i m).active = s.active := rfl
@[simp] theorem setBuf_cursor (s : State) (i : BufIdx) (m : Memory) : (s.setBuf i m).cursor = s.cursor := rfl
@[simp] theorem setBuf_dstate (s : State) (i : BufIdx) (m : Memory) : (s.setBuf i m).dstate = s.dstate := rfl
@[simp] theorem setBuf_cmd (s : State) (i : BufIdx) (m : Memory) : (s.setBuf i m).cmd = s.cmd := rfl
@[simp] theorem setBuf_rxPend (s : State) (i : BufIdx) (m : Memory) : (s.setBuf i m).rxPend = s.rxPend := rfl
@[simp] theorem setBuf_intMode (s : State) (i : BufIdx) (m : Memory) : (s.setBuf i m).intMode = s.intMode := rfl
@[simp] theorem setBuf_irqEn (s : State) (i : BufIdx) (m : Memory) : (s.setBuf i m).irqEn = s.irqEn := rfl
@[simp] theorem setBuf_irqMask (s : State) (i : BufIdx) (m : Memory) : (s.setBuf i m).irqMask = s.irqMask := rfl
@[simp] theorem setBuf_rxq (s : State) (i : BufIdx) (m : Memory) : (s.setBuf i m).rxq = s.rxq := rfl
@[simp] theorem setBuf_cfg (s : State) (i : BufIdx) (m : Memory) : (s.setBuf i m).cfg = s.cfg := rfl
@[simp] theorem setBuf_line (s : State) (i : BufIdx) (m : Memory) : (s.setBuf i m).line = s.line := rfl
@[simp] theorem setBuf_resetRxq (s : State) (i : BufIdx) (m : Memory) : (s.setBuf i m).resetRxq = s.resetRxq := rfl
@[simp] theorem setBuf_sched (s : State) (i : BufIdx) (m : Memory) : (s.setBuf i m).sched = s.sched := rfl
@[simp] theorem setBuf_phase (s : State) (i : BufIdx) (m : Memory) : (s.setBuf i m).phase = s.phase := rfl
@[simp] theorem setBuf_conRun (s : State) (i : BufIdx) (m : Memory) : (s.setBuf i m).conRun = s.conRun := rfl
@[simp] theorem setBuf_conResult (s : State) (i : BufIdx) (m : Memory) : (s.setBuf i m).conResult = s.conResult := rfl

/-! ### Storing a byte -/

@[simp] theorem storeByte_active (v : Byte) (s : State) : (storeByte v s).active = s.active := rfl
@[simp] theorem storeByte_cursor (v : Byte) (s : State) : (storeByte v s).cursor = s.cursor + 1 := rfl
@[simp] theorem storeByte_dstate (v : Byte) (s : State) : (storeByte v s).dstate = s.dstate := rfl
@[simp] theorem storeByte_cmd (v : Byte) (s : State) : (storeByte v s).cmd = s.cmd := rfl
@[simp] theorem storeByte_rxPend (v : Byte) (s : State) : (storeByte v s).rxPend = s.rxPend := rfl
@[simp] theorem storeByte_intMode (v : Byte) (s : State) : (storeByte v s).intMode = s.intMode := rfl
@[simp] theorem storeByte_irqEn (v : Byte) (s : State) : (storeByte v s).irqEn = s.irqEn := rfl
@[simp] theorem storeByte_irqMask (v : Byte) (s : State) : (storeByte v s).irqMask = s.irqMask := rfl
@[simp] theorem storeByte_rxq (v : Byte) (s : State) : (storeByte v s).rxq = s.rxq := rfl
@[simp] theorem storeByte_cfg (v : Byte) (s : State) : (storeByte v s).cfg = s.cfg := rfl
@[simp] theorem storeByte_line (v : Byte) (s : State) : (storeByte v s).line = s.line := rfl
@[simp] theorem storeByte_resetRxq (v : Byte) (s : State) : (storeByte v s).resetRxq = s.resetRxq := rfl
@[simp] theorem storeByte_sched (v : Byte) (s : State) : (storeByte v s).sched = s.sched := rfl
@[simp] theorem storeByte_phase (v : Byte) (s : State) : (storeByte v s).phase = s.phase := rfl
@[simp] theorem storeByte_conRun (v : Byte) (s : State) : (storeByte v s).conRun = s.conRun := rfl
@[simp] theorem storeByte_conResult (v : Byte) (s : State) : (storeByte v s).conResult = s.conResult := rfl

/-! ### Publishing -/

@[simp] theorem publish_buf0 (s : State) : (publish s).buf0 = s.buf0 := rfl
@[simp] theorem publish_buf1 (s : State) : (publish s).buf1 = s.buf1 := rfl
@[simp] theorem publish_active (s : State) : (publish s).active = otherBuf s.active := rfl
@[simp] theorem publish_cursor (s : State) : (publish s).cursor = 0 := rfl
@[simp] theorem publish_dstate (s : State) : (publish s).dstate = s.dstate := rfl
@[simp] theorem publish_cmd (s : State) : (publish s).cmd = some s.active := rfl
@[simp] theorem publish_rxPend (s : State) : (publish s).rxPend = s.rxPend := rfl
@[simp] theorem publish_intMode (s : State) : (publish s).intMode = s.intMode := rfl
@[simp] theorem publish_irqEn (s : State) : (publish s).irqEn = s.irqEn := rfl
@[simp] theorem publish_irqMask (s : State) : (publish s).irqMask = s.irqMask := rfl
@[simp] theorem publish_rxq (s : State) : (publish s).rxq = s.rxq := rfl
@[simp] theorem publish_cfg (s : State) : (publish s).cfg = s.cfg := rfl
@[simp] theorem publish_line (s : State) : (publish s).line = s.line := rfl
@[simp] theorem publish_resetRxq (s : State) : (publish s).resetRxq = s.resetRxq := rfl
@[simp] theorem publish_sched (s : State) : (publish s).sched = s.sched := rfl
@[simp] theorem publish_phase (s : State) : (publish s).phase = s.phase := rfl
@[simp] theorem publish_conRun (s : State) : (publish s).conRun = s.conRun := rfl
@[simp] theorem publish_conResult (s : State) : (publish s).conResult = s.conResult := rfl

/-! ### Entering the receive handler -/

@[simp] theorem enterHandler_buf0 (s : State) : (enterHandler s).buf0 = s.buf0 := rfl
@[simp] theorem enterHandler_buf1 (s : State) : (enterHandler s).buf1 = s.buf1 := rfl
@[simp] theorem enterHandler_active (s : State) : (enterHandler s).active = s.active := rfl
@[simp] theorem enterHandler_cursor (s : State) : (enterHandler s).cursor = s.cursor := rfl
@[simp] theorem enterHandler_dstate (s : State) : (enterHandler s).dstate = s.dstate := rfl
@[simp] theorem enterHandler_cmd (s : State) : (enterHandler s).cmd = s.cmd := rfl
@[simp] theorem enterHandler_rxPend (s : State) : (enterHandler s).rxPend = 0 := rfl
@[simp] theorem enterHandler_intMode (s : State) : (enterHandler s).intMode = .draining := rfl
@[simp] theorem enterHandler_irqEn (s : State) : (enterHandler s).irqEn = s.irqEn := rfl
@[simp] theorem enterHandler_irqMask (s : State) : (enterHandler s).irqMask = s.irqMask := rfl
@[simp] theorem enterHandler_rxq (s : State) : (enterHandler s).rxq = s.rxq := rfl
@[simp] theorem enterHandler_cfg (s : State) : (enterHandler s).cfg = s.cfg := rfl
@[simp] theorem enterHandler_line (s : State) : (enterHandler s).line = s.line := rfl
@[simp] theorem enterHandler_resetRxq (s : State) : (enterHandler s).resetRxq = s.resetRxq := rfl
@[simp] theorem enterHandler_sched (s : State) : (enterHandler s).sched = s.sched := rfl
@[simp] theorem enterHandler_phase (s : State) : (enterHandler s).phase = s.phase := rfl
@[simp] theorem enterHandler_conRun (s : State) : (enterHandler s).conRun = s.conRun := rfl
@[simp] theorem enterHandler_conResult (s : State) : (enterHandler s).conResult = s.conResult := rfl

/-! ### Returning from the receive handler -/

@[simp] theorem leaveHandler_buf0 (s : State) : (leaveHandler s).buf0 = s.buf0 := rfl
@[simp] theorem leaveHandler_buf1 (s : State) : (leaveHandler s).buf1 = s.buf1 := rfl
@[simp] theorem leaveHandler_active (s : State) : (leaveHandler s).active = s.active := rfl
@[simp] theorem leaveHandler_cursor (s : State) : (leaveHandler s).cursor = s.cursor := rfl
@[simp] theorem leaveHandler_dstate (s : State) : (leaveHandler s).dstate = s.dstate := rfl
@[simp] theorem leaveHandler_cmd (s : State) : (leaveHandler s).cmd = s.cmd := rfl
@[simp] theorem leaveHandler_rxPend (s : State) : (leaveHandler s).rxPend = s.rxPend := rfl
@[simp] theorem leaveHandler_intMode (s : State) : (leaveHandler s).intMode = .idle := rfl
@[simp] theorem leaveHandler_irqEn (s : State) : (leaveHandler s).irqEn = s.irqEn := rfl
@[simp] theorem leaveHandler_irqMask (s : State) : (leaveHandler s).irqMask = s.irqMask := rfl
@[simp] theorem leaveHandler_rxq (s : State) : (leaveHandler s).rxq = s.rxq := rfl
@[simp] theorem leaveHandler_cfg (s : State) : (leaveHandler s).cfg = s.cfg := rfl
@[simp] theorem leaveHandler_line (s : State) : (leaveHandler s).line = s.line := rfl
@[simp] theorem leaveHandler_resetRxq (s : State) : (leaveHandler s).resetRxq = s.resetRxq := rfl
@[simp] theorem leaveHandler_sched (s : State) : (leaveHandler s).sched = s.sched := rfl
@[simp] theorem leaveHandler_phase (s : State) : (leaveHandler s).phase = s.phase := rfl
@[simp] theorem leaveHandler_conRun (s : State) : (leaveHandler s).conRun = s.conRun := rfl
@[simp] theorem leaveHandler_conResult (s : State) : (leaveHandler s).conResult = s.conResult := rfl

/-! ### Answering the consumer -/

@[simp] theorem answer_buf0 (s : State) (r : Result) : (s.answer r).buf0 = s.buf0 := rfl
@[simp] theorem answer_buf1 (s : State) (r : Result) : (s.answer r).buf1 = s.buf1 := rfl
@[simp] theorem answer_active (s : State) (r : Result) : (s.answer r).active = s.active := rfl
@[simp] theorem answer_cursor (s : State) (r : Result) : (s.answer r).cursor = s.cursor := rfl
@[simp] theorem answer_dstate (s : State) (r : Result) : (s.answer r).dstate = s.dstate := rfl
@[simp] theorem answer_cmd (s : State) (r : Result) : (s.answer r).cmd = s.cmd := rfl
@[simp] theorem answer_rxPend (s : State) (r : Result) : (s.answer r).rxPend = s.rxPend := rfl
@[simp] theorem answer_intMode (s : State) (r : Result) : (s.answer r).intMode = s.intMode := rfl
@[simp] theorem answer_irqEn (s : State) (r : Result) : (s.answer r).irqEn = s.irqEn := rfl
@[simp] theorem answer_irqMask (s : State) (r : Result) : (s.answer r).irqMask = s.irqMask := rfl
@[simp] theorem answer_rxq (s : State) (r : Result) : (s.answer r).rxq = s.rxq := rfl
@[simp] theorem answer_cfg (s : State) (r : Result) : (s.answer r).cfg = s.cfg := rfl
@[simp] theorem answer_line (s : State) (r : Result) : (s.answer r).line = s.line := rfl
@[simp] theorem answer_resetRxq (s : State) (r : Result) : (s.answer r).resetRxq = s.resetRxq := rfl
@[simp] theorem answer_sched (s : State) (r : Result) : (s.answer r).sched = s.sched := rfl
@[simp] theorem answer_phase (s : State) (r : Result) : (s.answer r).phase = s.phase := rfl
@[simp] theorem answer_conRun (s : State) (r : Result) : (s.answer r).conRun = s.conRun := rfl
@[simp] theorem answer_conResult (s : State) (r : Result) : (s.answer r).conResult = some r := rfl

/-! ### Placing a raw byte -/

@[simp] theorem withRawByte_buf0 (s : State) (b : Byte) : (s.withRawByte b).buf0 = s.buf0 := rfl
@[simp] theorem withRawByte_buf1 (s : State) (b : Byte) : (s.withRawByte b).buf1 = s.buf1 := rfl
@[simp] theorem withRawByte_active (s : State) (b : Byte) : (s.withRawByte b).active = s.active := rfl
@[simp] theorem withRawByte_cursor (s : State) (b : Byte) : (s.withRawByte b).cursor = s.cursor := rfl
@[simp] theorem withRawByte_dstate (s : State) (b : Byte) : (s.withRawByte b).dstate = s.dstate := rfl
@[simp] theorem withRawByte_cmd (s : State) (b : Byte) : (s.withRawByte b).cmd = s.cmd := rfl
@[simp] theorem withRawByte_rxPend (s : State) (b : Byte) : (s.withRawByte b).rxPend = s.rxPend := rfl
@[simp] theorem withRawByte_intMode (s : State) (b : Byte) : (s.withRawByte b).intMode = .draining := rfl
@[simp] theorem withRawByte_irqEn (s : State) (b : Byte) : (s.withRawByte b).irqEn = s.irqEn := rfl
@[simp] theorem withRawByte_irqMask (s : State) (b : Byte) : (s.withRawByte b).irqMask = s.irqMask := rfl
@[simp] theorem withRawByte_rxq (s : State) (b : Byte) : (s.withRawByte b).rxq = b :: s.rxq.drop 1 := rfl
@[simp] theorem withRawByte_cfg (s : State) (b : Byte) : (s.withRawByte b).cfg = s.cfg := rfl
@[simp] theorem withRawByte_line (s : State) (b : Byte) : (s.withRawByte b).line = s.line := rfl
@[simp] theorem withRawByte_resetRxq (s : State) (b : Byte) : (s.withRawByte b).resetRxq = s.resetRxq := rfl
@[simp] theorem withRawByte_sched (s : State) (b : Byte) : (s.withRawByte b).sched = [] := rfl
@[simp] theorem withRawByte_phase (s : State) (b : Byte) : (s.withRawByte b).phase = .running := rfl
@[simp] theorem withRawByte_conRun (s : State) (b : Byte) : (s.withRawByte b).conRun = s.conRun := rfl
@[simp] theorem withRawByte_conResult (s : State) (b : Byte) : (s.withRawByte b).conResult = s.conResult := rfl

/-! ### The reset state -/

@[simp] theorem resetWith_buf0 (c : Config) (q : List Byte) (line : Line) (m : List Move) : (State.resetWith c q line m).buf0 = [] := rfl
@[simp] theorem resetWith_buf1 (c : Config) (q : List Byte) (line : Line) (m : List Move) : (State.resetWith c q line m).buf1 = [] := rfl
@[simp] theorem resetWith_active (c : Config) (q : List Byte) (line : Line) (m : List Move) : (State.resetWith c q line m).active = .b0 := rfl
@[simp] theorem resetWith_cursor (c : Config) (q : List Byte) (line : Line) (m : List Move) : (State.resetWith c q line m).cursor = 0 := rfl
@[simp] theorem resetWith_dstate (c : Config) (q : List Byte) (line : Line) (m : List Move) : (State.resetWith c q line m).dstate = .noFrame := rfl
@[simp] theorem resetWith_cmd (c : Config) (q : List Byte) (line : Line) (m : List Move) : (State.resetWith c q line m).cmd = none := rfl
@[simp] theorem resetWith_rxPend (c : Config) (q : List Byte) (line : Line) (m : List Move) : (State.resetWith c q line m).rxPend = 0 := rfl
@[simp] theorem resetWith_intMode (c : Config) (q : List Byte) (line : Line) (m : List Move) : (State.resetWith c q line m).intMode = .idle := rfl
@[simp] theorem resetWith_irqEn (c : Config) (q : List Byte) (line : Line) (m : List Move) : (State.resetWith c q line m).irqEn = false := rfl
@[simp] theorem resetWith_irqMask (c : Config) (q : List Byte) (line : Line) (m : List Move) : (State.resetWith c q line m).irqMask = false := rfl
@[simp] theorem resetWith_rxq (c : Config) (q : List Byte) (line : Line) (m : List Move) : (State.resetWith c q line m).rxq = q.take c.fifoDepth := rfl
@[simp] theorem resetWith_cfg (c : Config) (q : List Byte) (line : Line) (m : List Move) : (State.resetWith c q line m).cfg = c := rfl
@[simp] theorem resetWith_line (c : Config) (q : List Byte) (line : Line) (m : List Move) : (State.resetWith c q line m).line = line := rfl
@[simp] theorem resetWith_resetRxq (c : Config) (q : List Byte) (line : Line) (m : List Move) : (State.resetWith c q line m).resetRxq = q := rfl
@[simp] theorem resetWith_sched (c : Config) (q : List Byte) (line : Line) (m : List Move) : (State.resetWith c q line m).sched = m := rfl
@[simp] theorem resetWith_phase (c : Config) (q : List Byte) (line : Line) (m : List Move) : (State.resetWith c q line m).phase = .running := rfl
@[simp] theorem resetWith_conRun (c : Config) (q : List Byte) (line : Line) (m : List Move) : (State.resetWith c q line m).conRun = none := rfl
@[simp] theorem resetWith_conResult (c : Config) (q : List Byte) (line : Line) (m : List Move) : (State.resetWith c q line m).conResult = none := rfl

end Sys2Proof.Machine
end

