-- ==== Sys2Proof/Laws/Memory.lean ====
section
/-! SUPPORT. The laws of buffer contents: reading after a store (for any contents), the canonical form, the range. -/

namespace Sys2Proof.Machine

@[simp] theorem memory_read_nil (k : Nat) : Memory.read [] k = 0 := rfl

theorem memory_read_cons (a : Nat) (v : Byte) (m : Memory) (k : Nat) :
    Memory.read ((a, v) :: m) k = if a = k then v else Memory.read m k := rfl

theorem memory_erase_cons (a : Nat) (w : Byte) (m : Memory) (k : Nat) :
    Memory.erase ((a, w) :: m) k = if a = k then Memory.erase m k else (a, w) :: Memory.erase m k := rfl

theorem memory_insert_cons (a : Nat) (w : Byte) (m : Memory) (k : Nat) (v : Byte) :
    Memory.insert ((a, w) :: m) k v = if k < a then (k, v) :: (a, w) :: m else (a, w) :: Memory.insert m k v := rfl

theorem memory_read_erase (m : Memory) (k j : Nat) :
    Memory.read (Memory.erase m k) j = if j = k then 0 else Memory.read m j := by
  induction m with
  | nil => simp [Memory.erase]
  | cons p m ih =>
    obtain ⟨a, w⟩ := p
    rw [memory_erase_cons, memory_read_cons]
    split
    · next ha =>
      rw [ih]
      by_cases hj : j = k
      · simp [hj]
      · rw [if_neg hj, if_neg hj, if_neg (by omega)]
    · next ha =>
      rw [memory_read_cons, ih]
      by_cases hj : j = k
      · rw [if_pos hj, if_pos hj, if_neg (by omega)]
      · rw [if_neg hj, if_neg hj]

/-- Listed offsets other than `k` only. -/
theorem memory_mem_erase {m : Memory} {k : Nat} {cell : Host.Cell} (h : cell ∈ Memory.erase m k) :
    cell ∈ m ∧ cell.1 ≠ k := by
  induction m with
  | nil => exact absurd h List.not_mem_nil
  | cons p m ih =>
    obtain ⟨a, w⟩ := p
    rw [memory_erase_cons] at h
    split at h
    · exact ⟨List.mem_cons_of_mem _ (ih h).1, (ih h).2⟩
    · next ha =>
      rcases List.mem_cons.1 h with rfl | h
      · exact ⟨List.mem_cons_self .., ha⟩
      · exact ⟨List.mem_cons_of_mem _ (ih h).1, (ih h).2⟩

theorem memory_mem_insert {m : Memory} {k : Nat} {v : Byte} {cell : Host.Cell} (h : cell ∈ Memory.insert m k v) :
    cell = (k, v) ∨ cell ∈ m := by
  induction m with
  | nil => exact .inl (List.mem_singleton.1 h)
  | cons p m ih =>
    obtain ⟨a, w⟩ := p
    rw [memory_insert_cons] at h
    split at h
    · rcases List.mem_cons.1 h with h | h
      · exact .inl h
      · exact .inr h
    · rcases List.mem_cons.1 h with rfl | h
      · exact .inr (List.mem_cons_self ..)
      · rcases ih h with h | h
        · exact .inl h
        · exact .inr (List.mem_cons_of_mem _ h)

/-- Reading what was inserted, where no entry at its offset stood before. -/
theorem memory_read_insert {m : Memory} {k : Nat} (h : ∀ cell ∈ m, cell.1 ≠ k) (v : Byte) (j : Nat) :
    Memory.read (Memory.insert m k v) j = if j = k then v else Memory.read m j := by
  induction m with
  | nil => simp [Memory.insert, memory_read_cons, eq_comm]
  | cons p m ih =>
    obtain ⟨a, w⟩ := p
    have ha : a ≠ k := h (a, w) (List.mem_cons_self ..)
    rw [memory_insert_cons]
    split
    · rw [memory_read_cons]
      by_cases hj : j = k
      · rw [if_pos hj.symm, if_pos hj]
      · rw [if_neg (Ne.symm hj), if_neg hj]
    · rw [memory_read_cons, memory_read_cons, ih fun cell hc => h cell (List.mem_cons_of_mem _ hc)]
      by_cases hj : j = k
      · rw [if_pos hj, if_pos hj, if_neg (by omega)]
      · rw [if_neg hj, if_neg hj]

/-- A store is read back, and every other offset reads as before, in any contents. -/
theorem memory_read_write (m : Memory) (k j : Nat) (v : Byte) :
    Memory.read (Memory.write m k v) j = if j = k then v else Memory.read m j := by
  unfold Memory.write
  split
  · next hv => rw [memory_read_erase, hv]
  · rw [memory_read_insert fun cell hc => (memory_mem_erase hc).2, memory_read_erase]
    by_cases hj : j = k
    · rw [if_pos hj, if_pos hj]
    · rw [if_neg hj, if_neg hj, if_neg hj]

/-- What a store lists: the stored byte, if it is not zero, and entries that stood there before. -/
theorem memory_mem_write {m : Memory} {k : Nat} {v : Byte} {cell : Host.Cell} (h : cell ∈ Memory.write m k v) :
    cell = (k, v) ∨ cell ∈ m := by
  unfold Memory.write at h
  split at h
  · exact .inr (memory_mem_erase h).1
  · rcases memory_mem_insert h with h | h
    · exact .inl h
    · exact .inr (memory_mem_erase h).1

/-- A store in range keeps every listed byte in range. -/
theorem memory_write_inRange {cap : Nat} {m : Memory} (h : Memory.inRange cap m) {k : Nat} (hk : k < cap)
    (v : Byte) : Memory.inRange cap (Memory.write m k v) := by
  intro cell hc
  rcases memory_mem_write hc with rfl | hc
  · exact hk
  · exact h cell hc

/-- Every listed offset is at least `n`. -/
def Memory.above (n : Nat) (m : Memory) : Prop :=
  ∀ cell ∈ m, n ≤ cell.1

/-- The canonical form, one entry at a time. -/
theorem memory_wf_cons (a : Nat) (v : Byte) (m : Memory) :
    Memory.wf ((a, v) :: m) = true ↔ v ≠ 0 ∧ Memory.above (a + 1) m ∧ Memory.wf m = true := by
  induction m generalizing a v with
  | nil => simp [Memory.wf, Memory.above]
  | cons p m ih =>
    obtain ⟨b, w⟩ := p
    constructor
    · intro h
      simp only [Memory.wf, Bool.and_eq_true, bne_iff_ne, ne_eq, decide_eq_true_eq] at h
      obtain ⟨⟨hv, hab⟩, hm⟩ := h
      refine ⟨hv, ?_, hm⟩
      have habove := ((ih b w).1 hm).2.1
      intro cell hc
      rcases List.mem_cons.1 hc with rfl | hc
      · exact hab
      · have := habove cell hc
        omega
    · rintro ⟨hv, hab, hm⟩
      have : a < b := hab (b, w) (List.mem_cons_self ..)
      have hv' : ¬v = 0#8 := hv
      simp [Memory.wf, hv', this, hm]

theorem memory_erase_wf {m : Memory} (h : Memory.wf m = true) (k : Nat) : Memory.wf (Memory.erase m k) = true := by
  induction m with
  | nil => rfl
  | cons p m ih =>
    obtain ⟨a, w⟩ := p
    obtain ⟨hw, hab, hm⟩ := (memory_wf_cons a w m).1 h
    rw [memory_erase_cons]
    split
    · exact ih hm
    · exact (memory_wf_cons ..).2 ⟨hw, fun cell hc => hab cell (memory_mem_erase hc).1, ih hm⟩

theorem memory_insert_wf {m : Memory} (h : Memory.wf m = true) {k : Nat} (hk : ∀ cell ∈ m, cell.1 ≠ k) {v : Byte}
    (hv : v ≠ 0) : Memory.wf (Memory.insert m k v) = true := by
  induction m with
  | nil =>
    have hv' : ¬v = 0#8 := hv
    simp [Memory.insert, Memory.wf, hv']
  | cons p m ih =>
    obtain ⟨a, w⟩ := p
    obtain ⟨hw, hab, hm⟩ := (memory_wf_cons a w m).1 h
    have ha : a ≠ k := hk (a, w) (List.mem_cons_self ..)
    rw [memory_insert_cons]
    split
    · next hka =>
      refine (memory_wf_cons ..).2 ⟨hv, ?_, h⟩
      intro cell hc
      rcases List.mem_cons.1 hc with rfl | hc
      · exact hka
      · have := hab cell hc
        omega
    · refine (memory_wf_cons ..).2 ⟨hw, ?_, ih hm fun cell hc => hk cell (List.mem_cons_of_mem _ hc)⟩
      intro cell hc
      rcases memory_mem_insert hc with rfl | hc
      · show a + 1 ≤ k
        omega
      · exact hab cell hc

/-- A store keeps the canonical form. -/
theorem memory_write_wf {m : Memory} (h : Memory.wf m = true) (k : Nat) (v : Byte) :
    Memory.wf (Memory.write m k v) = true := by
  unfold Memory.write
  split
  · exact memory_erase_wf h k
  · next hv => exact memory_insert_wf (memory_erase_wf h k) (fun cell hc => (memory_mem_erase hc).2) hv

/-- An offset below every listed one reads zero. -/
theorem memory_read_above {n : Nat} {m : Memory} (h : Memory.above n m) {k : Nat} (hk : k < n) :
    Memory.read m k = 0 := by
  induction m with
  | nil => rfl
  | cons p m ih =>
    obtain ⟨a, v⟩ := p
    have ha : n ≤ a := h (a, v) (List.mem_cons_self ..)
    rw [memory_read_cons, if_neg (by omega)]
    exact ih fun cell hc => h cell (List.mem_cons_of_mem _ hc)

/-- The form is canonical: contents that read alike are equal. -/
theorem memory_ext {m l : Memory} (hm : Memory.wf m = true) (hl : Memory.wf l = true)
    (h : ∀ k, Memory.read m k = Memory.read l k) : m = l := by
  induction m generalizing l with
  | nil =>
    cases l with
    | nil => rfl
    | cons q l =>
      obtain ⟨b, w⟩ := q
      have hw := ((memory_wf_cons b w l).1 hl).1
      have := h b
      rw [memory_read_cons, if_pos rfl] at this
      exact absurd this.symm hw
  | cons p m ih =>
    obtain ⟨a, v⟩ := p
    obtain ⟨hv, hab, hm'⟩ := (memory_wf_cons a v m).1 hm
    cases l with
    | nil =>
      have := h a
      rw [memory_read_cons, if_pos rfl] at this
      exact absurd this hv
    | cons q l =>
      obtain ⟨b, w⟩ := q
      obtain ⟨hw, hbl, hl'⟩ := (memory_wf_cons b w l).1 hl
      have hab' : a = b := by
        rcases Nat.lt_trichotomy a b with hlt | heq | hgt
        · have := h a
          rw [memory_read_cons, if_pos rfl, memory_read_cons, if_neg (by omega),
            memory_read_above hbl (by omega)] at this
          exact absurd this hv
        · exact heq
        · have := h b
          rw [memory_read_cons, if_neg (by omega), memory_read_above hab (by omega), memory_read_cons,
            if_pos rfl] at this
          exact absurd this.symm hw
      subst hab'
      have hvw : v = w := by
        have := h a
        rwa [memory_read_cons, if_pos rfl, memory_read_cons, if_pos rfl] at this
      subst hvw
      congr 1
      refine ih hm' hl' fun k => ?_
      by_cases hk : k < a + 1
      · rw [memory_read_above hab hk, memory_read_above hbl hk]
      · have := h k
        rwa [memory_read_cons, if_neg (by omega), memory_read_cons, if_neg (by omega)] at this

/-! ### Buffers -/

@[simp] theorem buf_setBuf_same (s : State) (x : BufIdx) (m : Memory) : (s.setBuf x m).buf x = m := by
  cases x <;> rfl

theorem buf_setBuf_ne (s : State) {x y : BufIdx} (h : y ≠ x) (m : Memory) : (s.setBuf x m).buf y = s.buf y := by
  cases x <;> cases y <;> first | rfl | exact absurd rfl h

/-- Reading after one byte of a buffer has been replaced. -/
theorem byteAt_setBuf_write (s : State) (x y : BufIdx) (k j : Nat) (v : Byte) :
    (s.setBuf x ((s.buf x).write k v)).byteAt y j = if y = x ∧ j = k then v else s.byteAt y j := by
  unfold State.byteAt
  by_cases hy : y = x
  · subst hy
    rw [buf_setBuf_same, memory_read_write]
    by_cases hj : j = k <;> simp [hj]
  · rw [buf_setBuf_ne s hy, if_neg fun h => hy h.1]

/-- Buffers with the same contents read alike. -/
theorem byteAt_congr {s t : State} (h0 : t.buf0 = s.buf0) (h1 : t.buf1 = s.buf1) (x : BufIdx) (k : Nat) :
    t.byteAt x k = s.byteAt x k := by
  cases x <;> simp [State.byteAt, State.buf, h0, h1]

end Sys2Proof.Machine
end

