-- ==== Sys2Proof/Laws/Consumer.lean ====
section
/-! SUPPORT. The consumer's shared operations: when a consumer operation completes, what its operands are then, and
the little-endian values (R10, R54, R170). -/

namespace Sys2Proof.Machine

theorem asConsumer_free {s : State} (h : ConsumerFree s) (act : Host.Outcome State Fault Refusal) :
    asConsumer s act = act := by
  simp [asConsumer, h.1, h.2]

/-- A consumer operation that completes ran while the consumer was free. -/
theorem asConsumer_next {s t : State} {act : Host.Outcome State Fault Refusal}
    (h : asConsumer s act = .next t) : ConsumerFree s ∧ act = .next t := by
  unfold asConsumer at h
  split at h
  · cases h
  · next hr =>
    split at h
    · cases h
    · next hh => exact ⟨⟨by simpa using hr, by simpa using hh⟩, h⟩

@[simp] theorem bufIndex_number (x : BufIdx) : bufIndex (bufNumber x) = some x := by
  cases x <;> rfl

theorem bufIndex_big {i : Nat} (h : 2 ≤ i) : bufIndex i = none := by
  obtain ⟨j, rfl⟩ : ∃ j, i = j + 2 := ⟨i - 2, by omega⟩
  rfl

theorem bufIndex_some {i : Nat} {x : BufIdx} (h : bufIndex i = some x) : i = bufNumber x := by
  match i, h with
  | 0, h => cases h; rfl
  | 1, h => cases h; rfl

theorem withRange_in {s : State} (x : BufIdx) {k n : Nat} (h : k + n ≤ s.cfg.cap)
    (f : BufIdx → Host.Outcome State Fault Refusal) : withRange (bufNumber x) k n s f = f x := by
  simp [withRange, Nat.not_lt.2 h]

theorem withRange_past {s : State} (x : BufIdx) {k n : Nat} (h : s.cfg.cap < k + n)
    (f : BufIdx → Host.Outcome State Fault Refusal) :
    withRange (bufNumber x) k n s f = .refused .pastCapacity := by
  simp [withRange, h]

theorem withRange_badIndex {s : State} {i : Nat} (k n : Nat) (h : 2 ≤ i)
    (f : BufIdx → Host.Outcome State Fault Refusal) : withRange i k n s f = .refused .badBufferIndex := by
  simp [withRange, bufIndex_big h]

/-- A read that completes had a buffer and a range inside it (R54). -/
theorem withRange_next {s t : State} {i k n : Nat} {f : BufIdx → Host.Outcome State Fault Refusal}
    (h : withRange i k n s f = .next t) : ∃ x, i = bufNumber x ∧ k + n ≤ s.cfg.cap ∧ f x = .next t := by
  unfold withRange at h
  split at h
  · cases h
  · next x hx =>
    split at h
    · cases h
    · next hc => exact ⟨x, bufIndex_some hx, Nat.not_lt.1 hc, h⟩

theorem le16_toNat (b0 b1 : Byte) : (le16 b0 b1).toNat = b0.toNat + 256 * b1.toNat := by
  have := b0.isLt
  have := b1.isLt
  simp only [le16, BitVec.toNat_ofNat]
  omega

theorem le32_toNat (b0 b1 b2 b3 : Byte) :
    (le32 b0 b1 b2 b3).toNat = b0.toNat + 256 * b1.toNat + 65536 * b2.toNat + 16777216 * b3.toNat := by
  have := b0.isLt
  have := b1.isLt
  have := b2.isLt
  have := b3.isLt
  simp only [le32, BitVec.toNat_ofNat]
  omega

@[simp] theorem byteAt_answer (s : State) (r : Result) (x : BufIdx) (k : Nat) :
    (s.answer r).byteAt x k = s.byteAt x k :=
  byteAt_congr rfl rfl x k

theorem bytesAt_length (s : State) (x : BufIdx) (k n : Nat) : (s.bytesAt x k n).length = n := by
  simp [State.bytesAt]

theorem bytesAt_getElem? (s : State) (x : BufIdx) (k : Nat) {n j : Nat} (h : j < n) :
    (s.bytesAt x k n)[j]? = some (s.byteAt x (k + j)) := by
  simp [State.bytesAt, h]

/-- A run of bytes one longer. -/
theorem bytesAt_succ (s : State) (x : BufIdx) (k n : Nat) :
    s.bytesAt x k (n + 1) = s.bytesAt x k n ++ [s.byteAt x (k + n)] := by
  simp [State.bytesAt, List.range_succ]

end Sys2Proof.Machine
end

