-- ==== Sys2Proof/Laws/Decode.lean ====
section
/-! SUPPORT. The constraints of a valid configuration (R8), the classes of bytes (R81) and the decoder (R122). -/

namespace Sys2Proof.Machine

/-- What a valid configuration gives (R8, R7), one fact at a time. -/
structure ConfigFacts (c : Config) : Prop where
  end_ne_esc : c.endByte ≠ c.escByte
  end_ne_escEnd : c.endByte ≠ c.escEndByte
  end_ne_escEsc : c.endByte ≠ c.escEscByte
  esc_ne_escEnd : c.escByte ≠ c.escEndByte
  esc_ne_escEsc : c.escByte ≠ c.escEscByte
  escEnd_ne_escEsc : c.escEndByte ≠ c.escEscByte
  cap_holds_limit : 4 + c.lenLimit ≤ c.cap
  limit_holds_header : c.dataHdr ≤ c.lenLimit
  limit_fits : c.lenLimit ≤ 65535
  errors : [c.eOk, c.eBadLen, c.eBadCk, c.eNotInFlash, c.eNotImpl].Nodup
  header_holds_length : 4 ≤ c.dataHdr
  queue : 1 ≤ c.fifoDepth

theorem config_facts {c : Config} (h : c.valid = true) : ConfigFacts c := by
  simp only [Config.valid, Bool.and_eq_true] at h
  obtain ⟨⟨⟨⟨⟨⟨ha, hb⟩, hc⟩, hd⟩, he⟩, hf⟩, hq⟩ := h
  have ha := of_decide_eq_true ha
  simp only [List.nodup_cons, List.mem_cons, List.not_mem_nil, or_false, not_or] at ha
  obtain ⟨⟨h1, h2, h3⟩, ⟨h4, h5⟩, h6, -⟩ := ha
  exact ⟨h1, h2, h3, h4, h5, h6, of_decide_eq_true hb, of_decide_eq_true hc, of_decide_eq_true hd,
    of_decide_eq_true he, of_decide_eq_true hf, of_decide_eq_true hq⟩

theorem row_fits_whole (cls : ByteClass) (p b : Byte) : B8Row.fits ⟨cls, p, 0xFF⟩ b = decide (b = p) := by
  have : b &&& 0xFF = b := BitVec.and_allOnes
  simp only [B8Row.fits, this]
  rfl

/-- The class of a byte, as a chain of comparisons in the order of R81. -/
theorem classOf_eq (c : Config) (b : Byte) :
    classOf c b = if b = c.endByte then .delimiter else if b = c.escByte then .escape
      else if b = c.escEndByte then .escEnd else if b = c.escEscByte then .escEsc else .data := by
  have hlast : B8Row.fits ⟨.data, 0x00, 0x00⟩ b = true := by simp [B8Row.fits]
  simp only [classOf, b8Rows, List.find?_cons, row_fits_whole, hlast]
  by_cases h1 : b = c.endByte
  · simp only [decide_eq_true h1, if_pos h1]
  by_cases h2 : b = c.escByte
  · simp only [decide_eq_false h1, decide_eq_true h2, if_neg h1, if_pos h2]
  by_cases h3 : b = c.escEndByte
  · simp only [decide_eq_false h1, decide_eq_false h2, decide_eq_true h3, if_neg h1, if_neg h2, if_pos h3]
  by_cases h4 : b = c.escEscByte
  · simp only [decide_eq_false h1, decide_eq_false h2, decide_eq_false h3, decide_eq_true h4, if_neg h1, if_neg h2,
      if_neg h3, if_pos h4]
  · simp only [decide_eq_false h1, decide_eq_false h2, decide_eq_false h3, decide_eq_false h4, if_neg h1, if_neg h2,
      if_neg h3, if_neg h4]

theorem classOf_data_iff (c : Config) (b : Byte) :
    classOf c b = .data ↔ b ≠ c.endByte ∧ b ≠ c.escByte ∧ b ≠ c.escEndByte ∧ b ≠ c.escEscByte := by
  rw [classOf_eq]
  split
  · simp [*]
  split
  · simp [*]
  split
  · simp [*]
  split <;> simp [*]

/-! ### `slip_step`, class by class (R122 to R127) -/

theorem slipStep_end (c : Config) (d : DState) : slipStep c d c.endByte = caseEnd d := by
  cases d <;> simp [slipStep, caseEnd]

theorem slipStep_esc {c : Config} (h : ConfigFacts c) (d : DState) : slipStep c d c.escByte = caseEsc d := by
  have := h.end_ne_esc.symm
  have := h.esc_ne_escEnd
  have := h.esc_ne_escEsc
  cases d <;> simp [slipStep, caseEsc, *]

theorem slipStep_escEnd {c : Config} (h : ConfigFacts c) (d : DState) :
    slipStep c d c.escEndByte = caseEscEnd c d := by
  have := h.end_ne_escEnd.symm
  have := h.esc_ne_escEnd.symm
  cases d <;> simp [slipStep, caseEscEnd, *]

theorem slipStep_escEsc {c : Config} (h : ConfigFacts c) (d : DState) :
    slipStep c d c.escEscByte = caseEscEsc c d := by
  have := h.end_ne_escEsc.symm
  have := h.esc_ne_escEsc.symm
  have := h.escEnd_ne_escEsc.symm
  cases d <;> simp [slipStep, caseEscEsc, *]

theorem slipStep_data {c : Config} {b : Byte} (h : classOf c b = .data) (d : DState) :
    slipStep c d b = caseData b d := by
  obtain ⟨h1, h2, h3, h4⟩ := (classOf_data_iff c b).1 h
  cases d <;> simp [slipStep, caseData, *]

theorem slipStep_noFrame {c : Config} {b : Byte} (h : b ≠ c.endByte) :
    slipStep c .noFrame b = (.noFrame, .none) := by
  simp [slipStep, h]

/-- The cases of the decoder: what a step of it can be. -/
theorem slipStep_cases (c : Config) (d : DState) (b : Byte) :
    (∃ d', slipStep c d b = (d', .none) ∧ (d' = .noFrame → d = .noFrame)) ∨
    (∃ v, slipStep c d b = (.inFrame, .byte v) ∧ d ≠ .noFrame ∧ b ≠ c.endByte) ∨
    (slipStep c d b = (.noFrame, .done) ∧ d ≠ .noFrame ∧ b = c.endByte) := by
  unfold slipStep
  split
  · next hb =>
    split
    · exact .inl ⟨.inFrame, rfl, nofun⟩
    · next hd => exact .inr (.inr ⟨rfl, hd, hb⟩)
  · next hb =>
    cases d with
    | noFrame => exact .inl ⟨.noFrame, rfl, fun _ => rfl⟩
    | inFrame =>
      simp only
      split
      · exact .inl ⟨.escaping, rfl, nofun⟩
      · exact .inr (.inl ⟨b, rfl, nofun, hb⟩)
    | escaping =>
      simp only
      split
      · exact .inr (.inl ⟨_, rfl, nofun, hb⟩)
      · split
        · exact .inr (.inl ⟨_, rfl, nofun, hb⟩)
        · exact .inl ⟨.escaping, rfl, nofun⟩

end Sys2Proof.Machine
end

