-- ==== Sys2Proof/Laws/Receive.lean ====
section
/-! SUPPORT. What the shared operations of the receive path do (R141 to R144): one lemma for each outcome of
`settle`, what `ACCEPT` leaves alone, and streams of bytes. -/

namespace Sys2Proof.Machine

theorem otherBuf_ne (x : BufIdx) : otherBuf x ≠ x := by
  cases x <;> decide

@[simp] theorem otherBuf_otherBuf (x : BufIdx) : otherBuf (otherBuf x) = x := by
  cases x <;> rfl

theorem eq_otherBuf_of_ne {x y : BufIdx} (h : y ≠ x) : y = otherBuf x := by
  cases x <;> cases y <;> first | rfl | exact absurd rfl h

theorem settle_none (d : DState) (s : State) : settle (d, .none) s = { s with dstate := d } := rfl

theorem settle_done (d : DState) (s : State) : settle (d, .done) s = publishedState s d := rfl

theorem settle_byte (d : DState) (v : Byte) (s : State) :
    settle (d, .byte v) s =
      if s.cursor + 1 = s.cfg.cap then publish (storeByte v { s with dstate := d })
      else storeByte v { s with dstate := d } := rfl

theorem byteAt_storeByte (v : Byte) (s : State) (x : BufIdx) (k : Nat) :
    (storeByte v s).byteAt x k = if x = s.active ∧ k = s.cursor then v else s.byteAt x k := by
  rw [← byteAt_setBuf_write]
  exact byteAt_congr rfl rfl x k

@[simp] theorem byteAt_publish (s : State) (x : BufIdx) (k : Nat) : (publish s).byteAt x k = s.byteAt x k :=
  byteAt_congr rfl rfl x k

@[simp] theorem byteAt_dstate (s : State) (d : DState) (x : BufIdx) (k : Nat) :
    State.byteAt { s with dstate := d } x k = s.byteAt x k :=
  byteAt_congr rfl rfl x k

@[simp] theorem byteAt_publishedState (s : State) (d : DState) (x : BufIdx) (k : Nat) :
    (publishedState s d).byteAt x k = s.byteAt x k :=
  byteAt_congr rfl rfl x k

/-- The bytes after the outcome `BYTE(v)`. -/
theorem byteAt_settle_byte (d : DState) (v : Byte) (s : State) (x : BufIdx) (k : Nat) :
    (settle (d, .byte v) s).byteAt x k = if x = s.active ∧ k = s.cursor then v else s.byteAt x k := by
  rw [settle_byte]
  split
  · rw [byteAt_publish, byteAt_storeByte]; simp
  · rw [byteAt_storeByte]; simp

theorem outside_refl (s : State) : OutsideReceiveSame s s :=
  ⟨rfl, rfl, rfl, rfl, rfl, rfl, rfl, rfl, rfl, rfl, rfl, rfl⟩

theorem outside_trans {s t u : State} (h : OutsideReceiveSame s t) (g : OutsideReceiveSame t u) :
    OutsideReceiveSame s u := by
  obtain ⟨h1, h2, h3, h4, h5, h6, h7, h8, h9, h10, h11, h12⟩ := h
  obtain ⟨g1, g2, g3, g4, g5, g6, g7, g8, g9, g10, g11, g12⟩ := g
  exact ⟨g1.trans h1, g2.trans h2, g3.trans h3, g4.trans h4, g5.trans h5, g6.trans h6, g7.trans h7,
    g8.trans h8, g9.trans h9, g10.trans h10, g11.trans h11, g12.trans h12⟩

/-- What acting on an outcome leaves alone. -/
theorem settle_outside (r : DState × DecOut) (s : State) : OutsideReceiveSame s (settle r s) := by
  obtain ⟨d, o⟩ := r
  cases o with
  | none => exact outside_refl s
  | done => exact outside_refl s
  | byte v =>
    rw [settle_byte]
    split <;> exact outside_refl s

@[simp] theorem settle_cfg (r : DState × DecOut) (s : State) : (settle r s).cfg = s.cfg :=
  (settle_outside r s).2.2.2.2.2.1

@[simp] theorem settle_dstate (r : DState × DecOut) (s : State) : (settle r s).dstate = r.1 := by
  obtain ⟨d, o⟩ := r
  cases o with
  | none => rfl
  | done => rfl
  | byte v =>
    rw [settle_byte]
    split <;> rfl

/-- The outcome `BYTE(v)` stores `v` (R143). -/
theorem settle_byte_stored (d : DState) (v : Byte) (s : State) : Stored s (settle (d, .byte v) s) v d := by
  refine ⟨settle_dstate _ s, ?_, ?_, ?_, ?_, settle_outside _ s⟩
  · rw [byteAt_settle_byte, if_pos ⟨rfl, rfl⟩]
  · intro x k h
    rw [byteAt_settle_byte, if_neg fun hh => h.elim (fun h => h hh.1) fun h => h hh.2]
  · intro h
    rw [settle_byte, if_pos h]
    exact ⟨rfl, rfl, rfl⟩
  · intro h
    rw [settle_byte, if_neg h]
    exact ⟨rfl, rfl, rfl⟩

/-- What one `ACCEPT` can do to the registers of the receive path. -/
theorem acceptByte_cases (b : Byte) (s : State) :
    (∃ d, slipStep s.cfg s.dstate b = (d, .none) ∧ (d = .noFrame → s.dstate = .noFrame) ∧
      acceptByte b s = { s with dstate := d }) ∨
    (∃ v, slipStep s.cfg s.dstate b = (.inFrame, .byte v) ∧ Stored s (acceptByte b s) v .inFrame) ∨
    (slipStep s.cfg s.dstate b = (.noFrame, .done) ∧ s.dstate ≠ .noFrame ∧ b = s.cfg.endByte ∧
      acceptByte b s = publishedState s .noFrame) := by
  unfold acceptByte
  rcases slipStep_cases s.cfg s.dstate b with ⟨d, h, hd⟩ | ⟨v, h, -⟩ | ⟨h, hd, hb⟩
  · exact .inl ⟨d, h, hd, by rw [h]; rfl⟩
  · exact .inr (.inl ⟨v, h, by rw [h]; exact settle_byte_stored ..⟩)
  · exact .inr (.inr ⟨h, hd, hb, by rw [h]; rfl⟩)

theorem acceptByte_outside (b : Byte) (s : State) : OutsideReceiveSame s (acceptByte b s) :=
  settle_outside _ s

@[simp] theorem acceptByte_cfg (b : Byte) (s : State) : (acceptByte b s).cfg = s.cfg :=
  settle_cfg _ s

@[simp] theorem acceptByte_dstate (b : Byte) (s : State) :
    (acceptByte b s).dstate = (slipStep s.cfg s.dstate b).1 :=
  settle_dstate _ s

@[simp] theorem acceptAll_nil (s : State) : acceptAll [] s = s := rfl

@[simp] theorem acceptAll_cons (b : Byte) (bs : List Byte) (s : State) :
    acceptAll (b :: bs) s = acceptAll bs (acceptByte b s) := rfl

/-- No outcome changes a byte other than the one at the cursor of the active buffer (R141, R143). -/
theorem byteAt_settle_other (r : DState × DecOut) (s : State) {x : BufIdx} {k : Nat}
    (h : x ≠ s.active ∨ k ≠ s.cursor) : (settle r s).byteAt x k = s.byteAt x k := by
  obtain ⟨d, o⟩ := r
  cases o with
  | none => exact byteAt_dstate s d x k
  | done => exact byteAt_publishedState s d x k
  | byte v => exact (settle_byte_stored d v s).2.2.1 x k h

/-- Streams are accepted piece by piece (R167). -/
theorem acceptAll_append (p q : List Byte) (s : State) : acceptAll (p ++ q) s = acceptAll q (acceptAll p s) := by
  induction p generalizing s with
  | nil => rfl
  | cons b p ih => exact ih _

theorem acceptAll_outside (bs : List Byte) (s : State) : OutsideReceiveSame s (acceptAll bs s) := by
  induction bs generalizing s with
  | nil => exact outside_refl s
  | cons b bs ih => exact outside_trans (acceptByte_outside b s) (ih _)

@[simp] theorem acceptAll_cfg (bs : List Byte) (s : State) : (acceptAll bs s).cfg = s.cfg :=
  (acceptAll_outside bs s).2.2.2.2.2.1

end Sys2Proof.Machine
end

