-- ==== Sys2Proof/Laws/Step.lean ====
section
/-! SUPPORT. What a step can be: which move it makes and what the move does (R59), said once. -/

namespace Sys2Proof.Machine

/-- A step that completes has a valid configuration and is the move that is next. -/
theorem step_next_cases {s t : State} (h : step s = .next t) :
    s.cfg.valid = true ∧
    ((∃ m rest, s.sched = m :: rest ∧ runMove m { s with sched := rest } = .next t) ∨
      (s.sched = [] ∧ runMove (feedMove s) s = .next t)) := by
  unfold step stepMachine at h
  split at h
  · next hv =>
    refine ⟨hv, ?_⟩
    split at h
    · next hs => exact .inr ⟨hs, h⟩
    · next m rest hs => exact .inl ⟨m, rest, hs, h⟩
  · cases h

/-- A move that completes: the run's `RESET`, an operation, or a step of a byte-by-byte read. -/
theorem runMove_next_cases {m : Move} {s t : State} (h : runMove m s = .next t) :
    (s.phase = .beforeReset ∧ m = .op .reset ∧ exec .reset s = .next t) ∨
    (s.phase = .running ∧
      ((∃ i, m = .op i ∧ i.insidePop = false ∧ exec i s = .next t) ∨
        (∃ i, m = .split i ∧ beginSplit i s = .next t) ∨
        (m = .nextByte ∧ readNextByte s = .next t))) := by
  unfold runMove at h
  split at h
  · next hp =>
    split at h
    · next hm => exact .inl ⟨hp, hm, h⟩
    · cases h
  · next hp =>
    refine .inr ⟨hp, ?_⟩
    split at h
    · next i =>
      split at h
      · cases h
      · next hi => exact .inl ⟨i, rfl, by simpa using hi, h⟩
    · next i => exact .inr (.inl ⟨i, rfl, h⟩)
    · exact .inr (.inr ⟨rfl, h⟩)

/-- Going on with a read answers the consumer, or keeps the read in progress. -/
theorem settleRead_next_cases {r : ByteRun} {s t : State} (h : settleRead r s = .next t) :
    dataPast s.cfg r = false ∧
    ((nextOffset s.cfg r.kind r.done = none ∧
        t = { s.answer (finishRead s.cfg r.kind r.done) with conRun := none }) ∨
      (∃ k, nextOffset s.cfg r.kind r.done = some k ∧ t = { s with conRun := some r })) := by
  unfold settleRead at h
  split at h
  · cases h
  · next hp =>
    refine ⟨by simpa using hp, ?_⟩
    split at h
    · next hn =>
      cases h
      exact .inl ⟨hn, rfl⟩
    · next k hk =>
      cases h
      exact .inr ⟨k, hk, rfl⟩

/-- A step of a byte-by-byte read changes nothing but the consumer's own fields. -/
theorem settleRead_frame {r : ByteRun} {s t : State} (h : settleRead r s = .next t) :
    t = { s with conRun := t.conRun, conResult := t.conResult } := by
  rcases (settleRead_next_cases h).2 with ⟨-, rfl⟩ | ⟨k, -, rfl⟩ <;> rfl

theorem beginSplit_next {i : Instr} {s t : State} (h : beginSplit i s = .next t) :
    ∃ j kind x, readKind i = some (j, kind) ∧ ConsumerFree s ∧ j = bufNumber x ∧
      kind.range.1 + kind.range.2 ≤ s.cfg.cap ∧ settleRead ⟨kind, x, []⟩ s = .next t := by
  unfold beginSplit at h
  split at h
  · cases h
  · next j kind hk =>
    obtain ⟨hf, h⟩ := asConsumer_next h
    obtain ⟨x, hj, hr, h⟩ := withRange_next h
    exact ⟨j, kind, x, hk, hf, hj, hr, h⟩

theorem readNextByte_next {s t : State} (h : readNextByte s = .next t) :
    ∃ r, s.conRun = some r ∧ s.heldOff = false ∧
      ((nextOffset s.cfg r.kind r.done = none ∧ settleRead r s = .next t) ∨
        (∃ k, nextOffset s.cfg r.kind r.done = some k ∧ k < s.cfg.cap ∧
          settleRead { r with done := r.done ++ [s.byteAt r.idx k] } s = .next t)) := by
  unfold readNextByte at h
  split at h
  · cases h
  · next r hr =>
    split at h
    · cases h
    · next hh =>
      refine ⟨r, hr, by simpa using hh, ?_⟩
      split at h
      · next hn => exact .inl ⟨hn, h⟩
      · next k hk =>
        split at h
        · cases h
        · next hc => exact .inr ⟨k, hk, Nat.not_le.1 hc, h⟩

theorem beginSplit_frame {i : Instr} {s t : State} (h : beginSplit i s = .next t) :
    t = { s with conRun := t.conRun, conResult := t.conResult } := by
  obtain ⟨_, _, _, _, _, _, _, h⟩ := beginSplit_next h
  exact settleRead_frame h

theorem readNextByte_frame {s t : State} (h : readNextByte s = .next t) :
    t = { s with conRun := t.conRun, conResult := t.conResult } := by
  obtain ⟨_, _, _, ⟨_, h⟩ | ⟨_, _, _, h⟩⟩ := readNextByte_next h
  · exact settleRead_frame h
  · exact settleRead_frame h

/-- A consumer operation that only reads: it completes with an answer and changes nothing else. -/
theorem exec_read_answers {i : Instr} {s t : State} (ha : i.agent = .con) (h1 : i ≠ .cmdTake) (h2 : i ≠ .irqEnable)
    (h3 : i ≠ .irqMask) (h4 : i ≠ .irqUnmask) (h : exec i s = .next t) :
    ConsumerFree s ∧ ∃ r, t = s.answer r := by
  have key {act : Host.Outcome State Fault Refusal} (hact : ∀ u, act = .next u → ∃ r, u = s.answer r)
      (h : asConsumer s act = .next t) : ConsumerFree s ∧ ∃ r, t = s.answer r :=
    ⟨(asConsumer_next h).1, hact t (asConsumer_next h).2⟩
  have ranged {j k n : Nat} {f : BufIdx → Result} (u : State)
      (h : withRange j k n s (fun x => .next (s.answer (f x))) = .next u) : ∃ r, u = s.answer r := by
    obtain ⟨x, -, -, h⟩ := withRange_next h
    cases h
    exact ⟨_, rfl⟩
  cases i with
  | rxEnd => cases ha
  | rxEsc => cases ha
  | rxEscEnd => cases ha
  | rxEscEsc => cases ha
  | rxData _ => cases ha
  | accept _ => cases ha
  | intEnter => cases ha
  | intPop => cases ha
  | intExit => cases ha
  | envPush _ => cases ha
  | envRaise _ => cases ha
  | reset => cases ha
  | cmdTake => exact absurd rfl h1
  | irqEnable => exact absurd rfl h2
  | irqMask => exact absurd rfl h3
  | irqUnmask => exact absurd rfl h4
  | cmdPoll => exact key (fun u hu => ⟨_, by cases hu; rfl⟩) h
  | bufRd8 _ _ => exact key ranged h
  | bufRd16 _ _ => exact key ranged h
  | bufRd32 _ _ => exact key ranged h
  | hdrOp _ => exact key ranged h
  | hdrCk _ => exact key ranged h
  | hdrLen _ => exact key ranged h
  | ckHardlen _ => exact key ranged h
  | ckSum _ _ _ => exact key ranged h
  | ckFixlen _ _ => exact key ranged h
  | ckData _ =>
    refine key (fun u hu => ?_) h
    obtain ⟨x, -, -, hu⟩ := withRange_next hu
    split at hu
    · cases hu
    · cases hu
      exact ⟨_, rfl⟩

end Sys2Proof.Machine
end

