-- ==== Sys2Proof/Laws/Effect.lean ====
section
/-! SUPPORT. What an operation that completes can have done, said once (`exec_next_effect`); the invariant and the
frames are derived from it. -/

namespace Sys2Proof.Machine

/-- The effects of the operations, with the conditions under which they happen. -/
inductive Effect (s : State) : Instr → State → Prop where
  | receive {i : Instr} (r : DState × DecOut) (hi : i.insidePop = true) (ha : i.agent = .rx)
      (hr : ∃ b, receivedByte s i = some b ∧ (s.cfg.valid = true → r = slipStep s.cfg s.dstate b))
      (hd : r.1 = .noFrame → s.dstate = .noFrame ∧ r.2 = .none ∨ r.2 = .done) : Effect s i (settle r s)
  | pop (b : Byte) (q : List Byte) (hm : s.intMode = .draining) (hq : s.rxq = b :: q) :
      Effect s .intPop (acceptByte b { s with rxq := q })
  | enter (he : s.enterEnabled = true) : Effect s .intEnter (enterHandler s)
  | leave (hm : s.intMode = .draining) (hq : s.rxq = []) : Effect s .intExit (leaveHandler s)
  | push (b : Byte) (rest : Line) (hl : s.line.next = some (b, rest)) :
      Effect s (.envPush b) { s with rxq := arrive b s, line := rest }
  | raise (c : Condition) : Effect s (.envRaise c) { s with rxPend := s.rxPend ||| pendBit c }
  | read {i : Instr} (r : Result) (ha : i.agent = .con) (hf : ConsumerFree s) : Effect s i (s.answer r)
  | take (hf : ConsumerFree s) : Effect s .cmdTake { s.answer (.cmd s.cmd) with cmd := none }
  | enable (hf : ConsumerFree s) : Effect s .irqEnable { s with irqEn := true }
  | mask (hf : ConsumerFree s) : Effect s .irqMask { s with irqMask := true }
  | unmask (hf : ConsumerFree s) : Effect s .irqUnmask { s with irqMask := false }
  | reset (hp : s.phase = .beforeReset) :
      Effect s .reset (State.resetWith s.cfg s.resetRxq s.line s.sched)

theorem slipStep_noFrame_outcome {c : Config} {d : DState} {b : Byte} (h : (slipStep c d b).1 = .noFrame) :
    d = .noFrame ∧ (slipStep c d b).2 = .none ∨ (slipStep c d b).2 = .done := by
  rcases slipStep_cases c d b with ⟨d', e, hd⟩ | ⟨v, e, -⟩ | ⟨e, -⟩
  · rw [e] at h ⊢
    exact .inl ⟨hd h, rfl⟩
  · rw [e] at h
    cases h
  · rw [e]
    exact .inr rfl

theorem read_effect {i : Instr} {s t : State} (h : exec i s = .next t) (ha : i.agent = .con) (h1 : i ≠ .cmdTake)
    (h2 : i ≠ .irqEnable) (h3 : i ≠ .irqMask) (h4 : i ≠ .irqUnmask) : Effect s i t := by
  obtain ⟨hf, r, rfl⟩ := exec_read_answers ha h1 h2 h3 h4 h
  exact .read r ha hf

/-- Every operation that completes has one of these effects. -/
theorem exec_next_effect {i : Instr} {s t : State} (h : exec i s = .next t) : Effect s i t := by
  cases i with
  | rxEnd =>
    cases h
    refine .receive _ rfl rfl ⟨_, rfl, fun _ => (slipStep_end ..).symm⟩ ?_
    cases s.dstate <;> simp [caseEnd]
  | rxEsc =>
    cases h
    refine .receive _ rfl rfl ⟨_, rfl, fun hv => (slipStep_esc (config_facts hv) _).symm⟩ ?_
    cases s.dstate <;> simp [caseEsc]
  | rxEscEnd =>
    cases h
    refine .receive _ rfl rfl ⟨_, rfl, fun hv => (slipStep_escEnd (config_facts hv) _).symm⟩ ?_
    cases s.dstate <;> simp [caseEscEnd]
  | rxEscEsc =>
    cases h
    refine .receive _ rfl rfl ⟨_, rfl, fun hv => (slipStep_escEsc (config_facts hv) _).symm⟩ ?_
    cases s.dstate <;> simp [caseEscEsc]
  | rxData b =>
    simp only [exec, execRxData] at h
    split at h
    · next hc =>
      cases h
      refine .receive _ rfl rfl ⟨_, rfl, fun _ => (slipStep_data hc _).symm⟩ ?_
      cases s.dstate <;> simp [caseData]
    · cases h
  | accept b =>
    cases h
    exact .receive _ rfl rfl ⟨b, rfl, fun _ => rfl⟩ slipStep_noFrame_outcome
  | intEnter =>
    simp only [exec, execIntEnter] at h
    split at h
    · next he =>
      cases h
      exact .enter he
    · cases h
  | intPop =>
    simp only [exec, execIntPop] at h
    split at h
    · next b q hm hq =>
      cases h
      exact .pop b q hm hq
    · cases h
    · cases h
  | intExit =>
    simp only [exec, execIntExit] at h
    split at h
    · next hm hq =>
      cases h
      exact .leave hm hq
    · cases h
    · cases h
  | envPush b =>
    simp only [exec, execEnvPush] at h
    split at h
    · cases h
    · next x rest hl =>
      split at h
      · next hb =>
        cases h
        subst hb
        exact .push b rest hl
      · cases h
  | envRaise c =>
    cases h
    exact .raise c
  | cmdTake =>
    obtain ⟨hf, h⟩ := asConsumer_next h
    cases h
    exact .take hf
  | irqEnable =>
    obtain ⟨hf, h⟩ := asConsumer_next h
    cases h
    exact .enable hf
  | irqMask =>
    obtain ⟨hf, h⟩ := asConsumer_next h
    cases h
    exact .mask hf
  | irqUnmask =>
    obtain ⟨hf, h⟩ := asConsumer_next h
    cases h
    exact .unmask hf
  | reset =>
    simp only [exec, execReset] at h
    split at h
    · cases h
    · next hp =>
      cases h
      exact .reset hp
  | cmdPoll => exact read_effect h rfl nofun nofun nofun nofun
  | bufRd8 _ _ => exact read_effect h rfl nofun nofun nofun nofun
  | bufRd16 _ _ => exact read_effect h rfl nofun nofun nofun nofun
  | bufRd32 _ _ => exact read_effect h rfl nofun nofun nofun nofun
  | hdrOp _ => exact read_effect h rfl nofun nofun nofun nofun
  | hdrCk _ => exact read_effect h rfl nofun nofun nofun nofun
  | hdrLen _ => exact read_effect h rfl nofun nofun nofun nofun
  | ckHardlen _ => exact read_effect h rfl nofun nofun nofun nofun
  | ckSum _ _ _ => exact read_effect h rfl nofun nofun nofun nofun
  | ckFixlen _ _ => exact read_effect h rfl nofun nofun nofun nofun
  | ckData _ => exact read_effect h rfl nofun nofun nofun nofun

end Sys2Proof.Machine
end

