-- ==== Sys2Proof/Laws/Line.lean ====
section
/-! SUPPORT. The line (R15): what its next byte is in each of its forms, and what splitting it gives. -/

namespace Sys2Proof.Machine

@[simp] theorem line_next_cons (b : Byte) (bs : List Byte) (e : Option Nat) :
    Line.next ⟨b :: bs, e⟩ = some (b, ⟨bs, e⟩) := rfl

@[simp] theorem line_next_free (n : Nat) :
    Line.next ⟨[], some n⟩ = some (Config.freeLineByte n, ⟨[], some (n + 1)⟩) := rfl

@[simp] theorem line_next_end : Line.next ⟨[], none⟩ = none := rfl

@[simp] theorem line_exhausted_iff (l : Line) : l.exhausted = true ↔ l = ⟨[], none⟩ := by
  obtain ⟨bs, e⟩ := l
  cases bs <;> cases e <;> simp [Line.exhausted]

/-- The line has a next byte exactly when it is not exhausted. -/
theorem line_next_none_iff (l : Line) : l.next = none ↔ l.exhausted = true := by
  obtain ⟨bs, e⟩ := l
  cases bs <;> cases e <;> simp [Line.next]

/-- Taking a byte leaves an infinite line infinite. -/
theorem line_next_endless {b : Byte} {l rest : Line} (h : l.next = some (b, rest)) :
    rest.endless.isSome = l.endless.isSome := by
  obtain ⟨bs, e⟩ := l
  cases bs <;> cases e <;> simp_all [Line.next] <;> simp [← h.2]

@[simp] theorem line_split_zero (l : Line) : Line.split 0 l = ([], l) := rfl

theorem line_split_next {b : Byte} {l rest : Line} (h : l.next = some (b, rest)) (n : Nat) :
    Line.split (n + 1) l = (b :: (Line.split n rest).1, (Line.split n rest).2) := by
  rw [Line.split, h]

theorem line_split_none {l : Line} (h : l.next = none) (n : Nat) : Line.split n l = ([], l) := by
  cases n with
  | zero => rfl
  | succ n => rw [Line.split, h]

/-- A finite line of `n` bytes is split into all of them and the exhausted line. -/
theorem line_split_finite (bs : List Byte) : Line.split bs.length ⟨bs, none⟩ = (bs, ⟨[], none⟩) := by
  induction bs with
  | nil => rfl
  | cons b bs ih => rw [List.length_cons, line_split_next (line_next_cons b bs none), ih]

/-- Of an infinite line any number of bytes can be taken, and what is left is infinite. -/
theorem line_split_endless {l : Line} (h : l.endless.isSome = true) (n : Nat) :
    (Line.split n l).1.length = n ∧ (Line.split n l).2.endless.isSome = true := by
  induction n generalizing l with
  | zero => exact ⟨rfl, h⟩
  | succ n ih =>
    cases hn : l.next with
    | none =>
      rw [line_next_none_iff, line_exhausted_iff] at hn
      rw [hn] at h
      cases h
    | some p =>
      obtain ⟨b, rest⟩ := p
      rw [line_split_next hn]
      exact ⟨congrArg (· + 1) (ih ((line_next_endless hn).trans h)).1, (ih ((line_next_endless hn).trans h)).2⟩

end Sys2Proof.Machine
end

