-- ==== Sys2Proof/Laws/PerInstr.lean ====
section
/-! SUPPORT. Statements about every operation, one lemma for each constructor. Family `OneByte`: an operation has
raw bytes exactly if it is a byte-class case, and then one (R80, R92). -/

namespace Sys2Proof.Laws.OneByte

open Sys2Proof

/-- An operation's encoding, where it has one, is a single byte, and the operation is a case of `ACCEPT`. -/
def Statement (i : Instr) : Prop :=
  ∀ (c : Config) (w : List Byte), encode c i = some w → w.length = 1 ∧ i.insidePop = true

theorem rxEnd : Statement .rxEnd := by
  intro c w h; cases h; exact ⟨rfl, rfl⟩
theorem rxEsc : Statement .rxEsc := by
  intro c w h; cases h; exact ⟨rfl, rfl⟩
theorem rxEscEnd : Statement .rxEscEnd := by
  intro c w h; cases h; exact ⟨rfl, rfl⟩
theorem rxEscEsc : Statement .rxEscEsc := by
  intro c w h; cases h; exact ⟨rfl, rfl⟩
theorem rxData (b : Byte) : Statement (.rxData b) := by
  intro c w h; cases h; exact ⟨rfl, rfl⟩
theorem accept (b : Byte) : Statement (.accept b) := nofun
theorem intEnter : Statement .intEnter := nofun
theorem intPop : Statement .intPop := nofun
theorem intExit : Statement .intExit := nofun
theorem envPush (b : Byte) : Statement (.envPush b) := nofun
theorem envRaise (x : Condition) : Statement (.envRaise x) := nofun
theorem cmdPoll : Statement .cmdPoll := nofun
theorem cmdTake : Statement .cmdTake := nofun
theorem bufRd8 (j k : Nat) : Statement (.bufRd8 j k) := nofun
theorem bufRd16 (j k : Nat) : Statement (.bufRd16 j k) := nofun
theorem bufRd32 (j k : Nat) : Statement (.bufRd32 j k) := nofun
theorem hdrOp (j : Nat) : Statement (.hdrOp j) := nofun
theorem hdrCk (j : Nat) : Statement (.hdrCk j) := nofun
theorem hdrLen (j : Nat) : Statement (.hdrLen j) := nofun
theorem ckHardlen (j : Nat) : Statement (.ckHardlen j) := nofun
theorem ckSum (j k n : Nat) : Statement (.ckSum j k n) := nofun
theorem ckFixlen (j : Nat) (e : Half) : Statement (.ckFixlen j e) := nofun
theorem ckData (j : Nat) : Statement (.ckData j) := nofun
theorem irqEnable : Statement .irqEnable := nofun
theorem irqMask : Statement .irqMask := nofun
theorem irqUnmask : Statement .irqUnmask := nofun
theorem reset : Statement .reset := nofun

end Sys2Proof.Laws.OneByte
end

