-- ==== Sys2Proof/Tests/Slice0.lean ====
section
/-! SUPPORT. Tests: expected results are the rules' own examples and the vectors of 95_test_vectors.md (ids V…). After
them, one witness for the hypotheses of each statement. -/

namespace Sys2Proof.Tests

open Sys2Proof Sys2Proof.Machine

/-- The next state of an outcome, if it is one. -/
def nextOf (o : Host.Outcome State Fault Refusal) : Option State :=
  match o with
  | .next s => some s
  | .fault _ => none
  | .refused _ => none

/-- The refusal of an outcome, if it is one. -/
def refusalOf (o : Host.Outcome State Fault Refusal) : Option Refusal :=
  match o with
  | .next _ => none
  | .fault _ => none
  | .refused r => some r

/-- What an operation does to one field. -/
def after {α : Type} (i : Instr) (s : State) (f : State → α) : Option α :=
  (nextOf (exec i s)).map f

/-- `CAP` = 16, `LEN_LIMIT` = 8, `DATA_HDR` = 4, as in the vectors of 2.5; `FIFO_DEPTH` = 2, as in V4.12. -/
def small : Config :=
  { Config.default with cap := 16, lenLimit := 8, dataHdr := 4, fifoDepth := 2 }

/-- `CAP` = 32, `LEN_LIMIT` = 24, `DATA_HDR` = 16, as in the vectors of `CK.DATA`. -/
def wide : Config :=
  { Config.default with cap := 32, lenLimit := 24 }

/-- After `RESET` and `IRQ.ENABLE`. -/
def start (c : Config) : State :=
  { State.resetWith c [] ⟨[], none⟩ [] with irqEn := true }

/-- Inside a frame, three bytes stored (the example of R141). -/
def open3 : State :=
  { start small with dstate := .inFrame, cursor := 3 }

/-- The set-up of V4.20 to V4.41. -/
def held : State :=
  { start small with
    buf0 := [(0, 0x07), (2, 0x04), (4, 0xC0), (5, 0xDB), (6, 0x11), (7, 0xDC)], active := .b1, cmd := some .b0 }

/-- The base buffer of V5.10. -/
def base : State :=
  { start wide with
    buf0 := [(0, 0x03), (1, 0x39), (2, 0x14), (4, 0x04), (20, 0xC0), (21, 0xDB), (22, 0x11), (23, 0xDC)],
    active := .b1, cmd := some .b0 }

/-! ### WellFormed: each check refuses an ill-formed term -/

/-- R54: there is no buffer 2 (V4.28). -/
theorem test_wf_badIndex : (Instr.bufRd8 2 0).illFormed small = some .badIndex := by decide
/-- R54: a read of two bytes at offset 15 passes `CAP` = 16 (V4.33). -/
theorem test_wf_pastCap : (Instr.bufRd16 0 15).illFormed small = some .pastCap := by decide
/-- V4.32: the last legal offset. -/
theorem test_wf_lastOffset : (Instr.bufRd16 0 14).wf small = true := by decide
/-- R81: the delimiter is not of the data class. -/
theorem test_wf_codeByte : (Instr.rxData 0xC0).illFormed small = some .codeByte := by decide
/-- V7.5. -/
theorem test_config_codes : ({ small with escByte := 0xC0 } : Config).valid = false := by decide
/-- V7.6. -/
theorem test_config_cap : ({ small with cap := 11 } : Config).valid = false ∧
    ({ small with cap := 12 } : Config).valid = true := by decide
/-- V7.7. -/
theorem test_config_header : ({ wide with lenLimit := 15 } : Config).valid = false ∧
    ({ wide with lenLimit := 16 } : Config).valid = true := by decide
/-- V7.8. -/
theorem test_config_limit : ({ wide with cap := 0x20000, lenLimit := 0x10000 } : Config).valid = false ∧
    ({ wide with cap := 0x20000, lenLimit := 0xFFFF } : Config).valid = true := by decide
/-- V7.9. -/
theorem test_config_errors : ({ small with eBadLen := 0xC1 } : Config).valid = false := by decide
/-- R8 (f), R7. -/
theorem test_config_bounds : ({ small with dataHdr := 3 } : Config).valid = false ∧
    ({ small with fifoDepth := 0 } : Config).valid = false ∧ small.valid = true ∧ wide.valid = true ∧
    Config.default.valid = true := by decide

/-! ### Decoding: words written out from the table of R81 -/

/-- 1100 0000. -/
theorem test_decode_end : decodeTableWord 8 0b11000000 = some .rxEnd := by decide
/-- 1101 1011. -/
theorem test_decode_esc : decodeTableWord 8 0b11011011 = some .rxEsc := by decide
/-- 1101 1100. -/
theorem test_decode_escEnd : decodeTableWord 8 0b11011100 = some .rxEscEnd := by decide
/-- 1101 1101. -/
theorem test_decode_escEsc : decodeTableWord 8 0b11011101 = some .rxEscEsc := by decide
/-- 0100 0001, and the neighbours of the codes (V2.18 to V2.21). -/
theorem test_decode_data : decodeTableWord 8 0b01000001 = some (.rxData 0x41) ∧
    decodeTableWord 8 0b10111111 = some (.rxData 0xBF) ∧ decodeTableWord 8 0b11011110 = some (.rxData 0xDE) := by
  decide
/-- V2.34, V2.36. -/
theorem test_stuff : stuff small [0xDB, 0xDC] = [0xDB, 0xDD, 0xDC] ∧
    stuff small [0xC0, 0xC0] = [0xDB, 0xDC, 0xDB, 0xDC] := by decide
/-- V1.10, V1.3, V1.1. -/
theorem test_xorsum : xorsum small [0xC0, 0xDB, 0x11, 0xDC] = 0x39 ∧ xorsum small [0xEF] = 0x00 ∧
    xorsum small [] = 0xEF := by decide

/-! ### The receive path -/

/-- V2.1. -/
theorem test_rxEnd_start : after .rxEnd (start small) State.dstate = some .inFrame := by decide
/-- V2.11, R144: an open escape is abandoned, `BUF[0]` is published. -/
theorem test_rxEnd_publish : after .rxEnd { open3 with dstate := .escaping }
    (fun t => (t.dstate, t.cmd, t.active, t.cursor)) = some (.noFrame, some .b0, .b1, 0) := by decide
/-- V2.7. -/
theorem test_rxEsc_opens : after .rxEsc open3 (fun t => (t.dstate, t.cursor)) = some (.escaping, 3) := by decide
/-- V2.8: data inside a frame. -/
theorem test_rxEscEnd_data : after .rxEscEnd open3 (fun t => (t.byteAt .b0 3, t.cursor)) = some (0xDC, 4) := by
  decide
/-- V2.13: completes an escape. -/
theorem test_rxEscEnd_pair : after .rxEscEnd { open3 with dstate := .escaping }
    (fun t => (t.byteAt .b0 3, t.dstate)) = some (0xC0, .inFrame) := by decide
/-- V2.14. -/
theorem test_rxEscEsc_pair : after .rxEscEsc { open3 with dstate := .escaping }
    (fun t => (t.byteAt .b0 3, t.dstate)) = some (0xDB, .inFrame) := by decide
/-- V2.10. -/
theorem test_rxData_stored : after (.rxData 0x41) open3 (fun t => (t.byteAt .b0 3, t.cursor)) = some (0x41, 4) := by
  decide
/-- V2.15: a bad escape drops the byte. -/
theorem test_rxData_dropped : after (.rxData 0x41) { open3 with dstate := .escaping }
    (fun t => (t.byteAt .b0 3, t.cursor, t.dstate)) = some (0x00, 3, .escaping) := by decide
/-- R141's example: `ACCEPT(C0)` after three bytes and a fourth. -/
theorem test_accept_delimiter : after (.accept 0xC0) { open3 with cursor := 4 }
    (fun t => (t.dstate, t.cursor, t.active, t.cmd)) = some (.noFrame, 0, .b1, some .b0) := by decide
/-- R143, R148: the `CAP`-th byte is stored and published, the decoder staying inside the frame. -/
theorem test_accept_full : after (.accept 0x08) { open3 with cursor := 15 }
    (fun t => (t.byteAt .b0 15, t.dstate, t.cursor, t.active, t.cmd)) =
      some (0x08, .inFrame, 0, .b1, some .b0) := by decide

/-! ### Intake and environment -/

/-- V4.2. -/
theorem test_intEnter : after .intEnter { start small with rxPend := 0b11 } (fun t => (t.rxPend, t.intMode)) =
    some (0b00, .draining) := by decide
/-- V4.4. -/
theorem test_intEnter_masked : refusalOf (exec .intEnter { start small with rxPend := 0b01, irqMask := true }) =
    some .enterNotEnabled := by decide
/-- V4.7. -/
theorem test_intPop : after .intPop { start small with intMode := .draining, rxq := [0xC0, 0x41] }
    (fun t => (t.rxq, t.dstate)) = some ([0x41], .inFrame) := by decide
/-- V4.8. -/
theorem test_intPop_empty : refusalOf (exec .intPop { start small with intMode := .draining }) =
    some .popNotEnabled := by decide
/-- V4.10. -/
theorem test_intExit : nextOf (exec .intExit { open3 with intMode := .draining }) = some open3 := by decide
/-- V4.9. -/
theorem test_intExit_busy : refusalOf (exec .intExit { start small with intMode := .draining, rxq := [0x41] }) =
    some .exitNotEnabled := by decide
/-- V4.12. -/
theorem test_envPush : after (.envPush 0x41) { start small with rxq := [0xC0], line := ⟨[0x41], none⟩ }
    (fun t => (t.rxq, t.line)) = some ([0xC0, 0x41], ⟨[], none⟩) := by decide
/-- V4.13. -/
theorem test_envPush_lost : after (.envPush 0x42) { start small with rxq := [0xC0, 0x41], line := ⟨[0x42], some 0⟩ }
    (fun t => (t.rxq, t.line)) = some ([0xC0, 0x41], ⟨[], some 0⟩) := by decide
/-- V4.14. -/
theorem test_envRaise : after (.envRaise .tout) { start small with intMode := .draining }
    (fun t => (t.rxPend, t.intMode)) = some (0b10, .draining) := by decide

/-! ### The consumer port -/

/-- V4.20. -/
theorem test_cmdPoll : after .cmdPoll held (fun t => (t.conResult, t.cmd)) =
    some (some (.cmd (some .b0)), some .b0) := by decide
/-- V4.21, V6.7. -/
theorem test_cmdTake : after .cmdTake held (fun t => (t.conResult, t.cmd, t.frameReady)) =
    some (some (.cmd (some .b0)), none, false) := by decide
/-- V4.25. -/
theorem test_bufRd8 : after (.bufRd8 0 4) held State.conResult = some (some (.byte 0xC0)) := by decide
/-- V4.27. -/
theorem test_bufRd8_past : refusalOf (exec (.bufRd8 0 16) held) = some .pastCapacity := by decide
/-- V4.31. -/
theorem test_bufRd16 : after (.bufRd16 0 5) held State.conResult = some (some (.half 0x11DB)) := by decide
/-- V4.33. -/
theorem test_bufRd16_past : refusalOf (exec (.bufRd16 0 15) held) = some .pastCapacity := by decide
/-- V4.34. -/
theorem test_bufRd32 : after (.bufRd32 0 4) held State.conResult = some (some (.word 0xDC11DBC0)) := by decide
/-- V4.38. -/
theorem test_bufRd32_past : refusalOf (exec (.bufRd32 0 13) held) = some .pastCapacity := by decide
/-- V4.40. -/
theorem test_hdrOp : after (.hdrOp 0) held State.conResult = some (some (.byte 0x07)) := by decide
/-- V4.40, read from the base buffer of V5.10. -/
theorem test_hdrCk : after (.hdrCk 0) base State.conResult = some (some (.byte 0x39)) := by decide
/-- V4.40. -/
theorem test_hdrLen : after (.hdrLen 0) held State.conResult = some (some (.half 0x0004)) := by decide
/-- P8: the last byte read of a torn word, half of one frame and half of another. -/
theorem test_nextByte_torn : (nextOf (readNextByte { held with
      buf0 := [(4, 0xEF), (5, 0xBE), (6, 0x34), (7, 0x12)],
      conRun := some ⟨.rd32 4, .b0, [0xEF, 0xBE, 0x34]⟩ })).map (fun t => (t.conResult, t.conRun)) =
    some (some (.word 0x1234BEEF), none) := by decide

/-! ### The validator -/

/-- V5.2: `dlen` = `LEN_LIMIT` passes. -/
theorem test_ckHardlen_equal : after (.ckHardlen 0) { start Config.default with buf0 := [(2, 0x10), (3, 0x40)] }
    State.conResult = some (some (.pair 0x00 0x00)) := by decide
/-- V5.3. -/
theorem test_ckHardlen_over : after (.ckHardlen 0) { start Config.default with buf0 := [(2, 0x11), (3, 0x40)] }
    State.conResult = some (some (.pair 0xC0 0xEE)) := by decide
/-- V5.30. -/
theorem test_ckSum : after (.ckSum 0 20 4) base State.conResult = some (some (.byte 0x39)) := by decide
/-- V5.35. -/
theorem test_ckSum_empty : after (.ckSum 0 32 0) base State.conResult = some (some (.byte 0xEF)) := by decide
/-- P1: `CK.FIXLEN 0 4`. -/
theorem test_ckFixlen_equal : after (.ckFixlen 0 4) held State.conResult = some (some (.code 0x00)) := by decide
/-- P1: `CK.FIXLEN 0 8`; R221: its auxiliary status is 0. -/
theorem test_ckFixlen_other : after (.ckFixlen 0 8) held (fun t => (t.conResult, t.conResult.map Result.auxStatus)) =
    some (some (.code 0xC0), some 0x00) := by decide
/-- V5.10. -/
theorem test_ckData : after (.ckData 0) base State.conResult = some (some (.code 0x00)) := by decide
/-- V5.13: both checks fail, the checksum's verdict wins. -/
theorem test_ckData_both : after (.ckData 0) { base with
      buf0 := [(0, 0x03), (1, 0x38), (2, 0x14), (4, 0x05), (20, 0xC0), (21, 0xDB), (22, 0x11), (23, 0xDC)] }
    State.conResult = some (some (.code 0xC1)) := by decide

/-! ### Interrupt control, reset, steps -/

/-- V6.1. -/
theorem test_irqEnable : after .irqEnable { start small with irqEn := false } State.irqEn = some true := by decide
/-- R227. -/
theorem test_irqMask : after .irqMask (start small) State.irqMask = some true := by decide
/-- V6.4. -/
theorem test_irqUnmask : after .irqUnmask { start small with irqMask := true, rxPend := 0b01 }
    (fun t => (t.irqMask, t.enterEnabled)) = some (false, true) := by decide
/-- R250. -/
theorem test_reset : nextOf (exec .reset { held with phase := .beforeReset, irqMask := true, resetRxq := [0x41] }) =
    some { State.resetWith small [0x41] ⟨[], none⟩ [] with resetRxq := [0x41] } := by decide
/-- R250: no meaning in mid-run. -/
theorem test_reset_midRun : refusalOf (exec .reset held) = some .resetInMidRun := by decide
/-- V2.1, as a step: the byte C0 where the next step pops it. -/
theorem test_step_fetch_end : (nextOf (step (State.reset.withFetchWord 8 0xC0))).map State.dstate = some .inFrame := by
  decide
/-- V2.5, as a step. -/
theorem test_step_fetch_data : (nextOf (step (State.reset.withFetchWord 8 0x41))).map
    (fun t => (t.dstate, t.rxq)) = some (.noFrame, []) := by decide
/-- V7.1, V7.3: after reset a step polls, and finds nothing. -/
theorem test_step_reset : (nextOf (step State.reset)).map State.conResult = some (some (.cmd none)) := by decide

/-! ### Witnesses: each statement's hypotheses, met together -/

/-- The invariant at a state that lists no byte. -/
theorem inv_of_empty {s : State} (hc : s.cursor < s.cfg.cap) (hm : s.cmd = none ∨ s.cmd = some (otherBuf s.active))
    (hq : s.rxq.length ≤ s.cfg.fifoDepth) (ho : s.dstate = .noFrame → s.cursor = 0) (h0 : s.buf0 = [])
    (h1 : s.buf1 = []) (hr : s.conRun = none) : RunningInv s where
  cursor_lt := hc
  handoff := hm
  queue := hq
  outside := ho
  canon0 := by rw [h0]; rfl
  canon1 := by rw [h1]; rfl
  range0 := by rw [h0]; exact fun _ h => nomatch h
  range1 := by rw [h1]; exact fun _ h => nomatch h
  run := by rw [hr]; exact fun _ h => nomatch h

theorem free_start (c : Config) : ConsumerFree (start c) := ⟨rfl, by simp [start, State.heldOff, State.resetWith]⟩
theorem free_held : ConsumerFree held := ⟨rfl, rfl⟩
theorem free_base : ConsumerFree base := ⟨rfl, rfl⟩

/-- One byte for each row of the table, first match first. -/
theorem witness_ByteClassIsFirstMatch : classOf small 0xC0 = .delimiter ∧ classOf small 0xDB = .escape ∧
    classOf small 0xDC = .escEnd ∧ classOf small 0xDD = .escEsc ∧ classOf small 0xFF = .data := by decide
theorem witness_DecodeOfEncodeIsTheInstruction : small.valid = true ∧ (Instr.rxData 0xFF).wf small = true ∧
    encode small (.rxData 0xFF) = some [0xFF] := by decide
theorem witness_EncodeOfDecodeIsTheByte : ∃ i rest, decode small [0xDB, 0xC0] = .ok (i, rest) := ⟨_, _, rfl⟩
theorem witness_StuffedPayloadHasNoDelimiter : small.valid = true ∧ stuff small [0x01, 0xDB] =
    [0x01] ++ small.escByte :: [0xDD] ∧ (0xDC : Byte) ≠ small.endByte ∧ (0xDC : Byte) ≠ small.escByte := by decide
theorem witness_SlipStepFollowsTheTable : small.valid = true ∧ classOf small 0x00 = .data := by decide
theorem witness_DecoderTableProperties : small.valid = true := by decide
theorem witness_RxEndStartsOrPublishes : (start small).dstate = .noFrame ∧ open3.dstate = .inFrame := by decide
theorem witness_RxEscOpensAnEscape : ({ open3 with dstate := .escaping } : State).dstate = .escaping := by decide
theorem witness_EscapeCodesAreDataOrSubstitutes : (start small).dstate = .noFrame ∧ open3.dstate = .inFrame ∧
    ({ open3 with dstate := .escaping, cursor := 15 } : State).cursor + 1 = small.cap := by decide
theorem witness_RxDataIsStoredOnlyInsideAFrame : classOf open3.cfg 0x41 = .data ∧ open3.dstate = .inFrame ∧
    classOf open3.cfg 0xDD ≠ .data := by decide
theorem witness_AcceptActsOnTheOutcome : (slipStep small .inFrame 0xDB).2 = .none ∧
    (slipStep small .inFrame 0x41).2 = .byte 0x41 ∧ (slipStep small .inFrame 0xC0).2 = .done := by decide
/-- The byte before the last of the buffer, and the last. -/
theorem witness_FullBufferIsPublishedByForce :
    RunningInv { open3 with cursor := 14 } ∧ RunningInv { open3 with cursor := 15 } ∧
    (slipStep small .inFrame 0x41).2 = .byte 0x41 ∧ 15 + 1 = small.cap :=
  ⟨inv_of_empty (by decide) (.inl rfl) (by decide) (fun h => nomatch h) rfl rfl rfl,
    inv_of_empty (by decide) (.inl rfl) (by decide) (fun h => nomatch h) rfl rfl rfl, by decide, by decide⟩
theorem witness_PublicationSwapsAndNamesTheBuffer : (slipStep open3.cfg open3.dstate 0xC0).2 = .done ∧
    (slipStep open3.cfg open3.dstate 0x41).2 = .byte 0x41 ∧
    ({ open3 with cursor := 15 } : State).cursor + 1 = open3.cfg.cap := by decide
/-- A storing form, with the address it stores to, and a form that stores nothing. -/
theorem witness_OnlyTheStoreAddressChanges : open3.cfg.valid = true ∧ (∃ t, exec (.accept 0x41) open3 = .next t) ∧
    storeAddress (.accept 0x41) open3 = some (.b0, 3) ∧ storeAddress .rxEsc open3 = none ∧
    storeAddress .cmdTake open3 = none :=
  ⟨by decide, ⟨_, rfl⟩, by decide, by decide, by decide⟩
theorem witness_ReceiveOperationsFrame : (∃ t, exec .rxEsc open3 = .next t) ∧
    (∃ t, exec .intPop { open3 with intMode := .draining, rxq := [0x41, 0x42] } = .next t) :=
  ⟨⟨_, rfl⟩, ⟨_, rfl⟩⟩
/-- Enabled; and one state for each of the four ways not to be. -/
theorem witness_IntEnterClearsPendingAndDrains :
    ({ start small with rxPend := 0b10 } : State).enterEnabled = true ∧ (start small).rxPend = 0 ∧
    ({ start small with irqEn := false } : State).irqEn = false ∧
    ({ start small with irqMask := true } : State).irqMask = true ∧
    ({ start small with intMode := .draining } : State).intMode ≠ .idle := by decide
theorem witness_IntPopAcceptsTheHead : ∃ s : State, s.intMode = .draining ∧ s.rxq = 0xC0 :: [0x41] :=
  ⟨{ start small with intMode := .draining, rxq := [0xC0, 0x41] }, rfl, rfl⟩
theorem witness_IntExitOnlyOnEmptyQueue : ∃ s : State, s.intMode = .draining ∧ s.rxq = [] :=
  ⟨{ start small with intMode := .draining }, rfl, rfl⟩
/-- One byte below the depth, at the depth, another byte than the line's next, no line, an infinite line. -/
theorem witness_EnvPushAppendsOrLoses : ∃ s t u : State, s.line.next = some (0x41, ⟨[], none⟩) ∧
    s.rxq.length + 1 = s.cfg.fifoDepth ∧ t.line.next = some (0x41, ⟨[], none⟩) ∧ t.cfg.fifoDepth ≤ t.rxq.length ∧
    (0x42 : Byte) ≠ 0x41 ∧ (start small).line.exhausted = true ∧ u.line = ⟨[], some 0⟩ :=
  ⟨{ start small with line := ⟨[0x41], none⟩, rxq := [0x01] },
    { start small with line := ⟨[0x41], none⟩, rxq := [0x01, 0x02] }, { start small with line := ⟨[], some 0⟩ },
    by decide⟩
theorem witness_PollReadsAndTakeExchanges : ConsumerFree held ∧ held.cmd = some .b0 := ⟨free_held, rfl⟩
/-- The last offset in range, and the first past it. -/
theorem witness_BufRd8ReturnsTheByte : ConsumerFree held ∧ 15 < held.cfg.cap ∧ held.cfg.cap ≤ 16 :=
  ⟨free_held, by decide, by decide⟩
theorem witness_BufRd16IsLittleEndian : ConsumerFree held ∧ 14 + 2 ≤ held.cfg.cap ∧ held.cfg.cap < 15 + 2 :=
  ⟨free_held, by decide, by decide⟩
theorem witness_BufRd32IsLittleEndian : ConsumerFree held ∧ 12 + 4 ≤ held.cfg.cap ∧ held.cfg.cap < 13 + 4 :=
  ⟨free_held, by decide, by decide⟩
theorem witness_HeaderFieldsAreAtTheirOffsets : ConsumerFree held ∧ held.cfg.valid = true := ⟨free_held, by decide⟩
theorem witness_ConsumerReadsAreRepeatable : (Instr.hdrLen 0).agent = .con ∧ (∃ t, exec (.hdrLen 0) held = .next t) :=
  ⟨rfl, _, rfl⟩
theorem witness_XorsumLaws : [(0x01 : Byte), 0x02].Perm [0x02, 0x01] := List.Perm.swap ..
theorem witness_XorsumDetectsExactlyOneByteChanges : (0x34 : Byte) ≠ 0x35 := by decide
/-- `dlen` at the limit, and one above it (V5.2, V5.3). -/
theorem witness_CkHardlenRejectsOversize :
    ConsumerFree { start wide with buf0 := [(2, 24)] } ∧ ConsumerFree { start wide with buf0 := [(2, 25)] } ∧
    wide.valid = true ∧ (24 : Byte).toNat + 256 * 0 ≤ wide.lenLimit ∧ (25 : Byte).toNat + 256 * 0 > wide.lenLimit :=
  ⟨⟨rfl, rfl⟩, ⟨rfl, rfl⟩, by decide, by decide, by decide⟩
/-- The whole buffer, and one byte more (V5.33, V5.34). -/
theorem witness_CkSumIsTheXorsumOfTheRange : ConsumerFree base ∧ 0 + 32 ≤ base.cfg.cap ∧ base.cfg.cap < 1 + 32 :=
  ⟨free_base, by decide, by decide⟩
theorem witness_CkFixlenComparesTheDeclaredLength : ConsumerFree held ∧ held.cfg.valid = true ∧
    (held.byteAt .b0 2).toNat + 256 * (held.byteAt .b0 3).toNat = (4 : Half).toNat ∧
    (held.byteAt .b0 2).toNat + 256 * (held.byteAt .b0 3).toNat ≠ (5 : Half).toNat :=
  ⟨free_held, by decide, by decide, by decide⟩
/-- The declared length of the base buffer; then the boundaries of the three cases: a `dlen` whose data end with the
buffer, one more, `DATA_HDR`, and one less. -/
theorem witness_CkDataChecksLengthAndChecksum : ConsumerFree base ∧ base.cfg.valid = true ∧
    20 = (base.byteAt .b0 2).toNat + 256 * (base.byteAt .b0 3).toNat ∧
    4 = (base.byteAt .b0 4).toNat + 256 * (base.byteAt .b0 5).toNat + 65536 * (base.byteAt .b0 6).toNat +
      16777216 * (base.byteAt .b0 7).toNat ∧
    4 + 28 ≤ base.cfg.cap ∧ base.cfg.cap < 4 + 29 ∧ base.cfg.dataHdr ≤ 16 ∧ 15 < base.cfg.dataHdr :=
  ⟨free_base, by decide, by decide, by decide, by decide, by decide, by decide, by decide⟩
theorem witness_HardlenPassKeepsDataCheckInRange : base.cfg.valid = true ∧ ∃ t, exec (.ckHardlen 0) base = .next t ∧
    t.conResult = some (.pair base.cfg.eOk 0x00) := ⟨by decide, _, rfl, by decide⟩
theorem witness_InterruptControlBits : ∃ s : State, ConsumerFree s ∧ s.rxPend ≠ 0 ∧ s.irqEn = true ∧
    s.irqMask = false ∧ s.intMode = .idle :=
  ⟨{ start small with rxPend := 0b01 }, ⟨rfl, rfl⟩, by decide, rfl, rfl, rfl⟩
theorem witness_ResetGivesTheResetState : ∃ s : State, s.phase = .beforeReset ∧ s.resetRxq.length = 3 :=
  ⟨{ held with phase := .beforeReset, resetRxq := [0x01, 0x02, 0x03] }, rfl, rfl⟩
theorem witness_RunStartsWithOneReset : ∃ s : State, s.cfg.valid = true ∧ s.sched = .op .reset :: [] ∧
    s.phase = .running ∧ ({ s with phase := .beforeReset } : State).phase = .beforeReset ∧
    Move.op .cmdPoll ≠ .op .reset :=
  ⟨{ start small with sched := [.op .reset] }, by decide, rfl, rfl, rfl, by decide⟩
/-- Each constraint broken by one. -/
theorem witness_BrokenConfigurationIsRefused : 11 < 4 + small.lenLimit ∧ 3 < small.dataHdr ∧ 0xFFFF < 0x10000 ∧
    ¬[(0xC0 : Byte), 0xC0, 0xDC, 0xDD].Nodup ∧ ¬[(0x00 : Byte), 0xC1, 0xC1, 0xC6, 0xFF].Nodup ∧ 3 < 4 := by decide
theorem witness_ScheduledOperationRuns : ∃ s : State, s.cfg.valid = true ∧ s.phase = .running ∧
    s.sched = .op .cmdTake :: [.op (.accept 0x41)] ∧ Instr.cmdTake.insidePop = false ∧
    (Instr.accept 0x41).insidePop = true ∧
    ({ s with sched := [.split (.hdrLen 0), .nextByte] } : State).sched = .split (.hdrLen 0) :: [.nextByte] :=
  ⟨{ held with sched := [.op .cmdTake, .op (.accept 0x41)] }, by decide, rfl, rfl, rfl, rfl, rfl⟩
theorem witness_PopRunsTheDecodedByte : ∃ s : State, s.cfg.valid = true ∧ s.phase = .running ∧
    s.intMode = .draining ∧ s.rxq ≠ [] ∧ decode s.cfg s.rxq = .ok (.rxEnd, [0x41]) ∧ [0x41] = s.rxq.tail ∧
    s.sched = [] :=
  ⟨{ start small with intMode := .draining, rxq := [0xC0, 0x41] }, by decide, rfl, rfl, by decide, rfl, rfl, rfl⟩
theorem witness_ResetStateSatisfiesInvariant : small.valid = true := by decide
theorem witness_StepKeepsTheInvariant : ∃ s t : State, Inv s ∧ s.phase = .running ∧ step s = .next t :=
  ⟨{ open3 with intMode := .draining, rxq := [0x41] }, _,
    fun _ => inv_of_empty (by decide) (.inl rfl) (by decide) (fun h => nomatch h) rfl rfl rfl, rfl, rfl⟩
/-- An operation that completes, of each agent. -/
theorem witness_AgentsKeepTheirAccessRights : (∃ t, exec .cmdTake held = .next t) ∧
    (∃ t, exec (.accept 0x41) open3 = .next t ∧ (.b1 : BufIdx) ≠ open3.active ∧ 2 ≠ open3.cursor) ∧
    (∃ t, exec (.envRaise .data) held = .next t) :=
  ⟨⟨_, rfl⟩, ⟨_, rfl, by decide, by decide⟩, ⟨_, rfl⟩⟩
theorem witness_StepWritesOnlyTheActiveBuffer : ∃ s t : State, s.phase = .running ∧ step s = .next t ∧
    (.b1 : BufIdx) ≠ s.active :=
  ⟨{ open3 with intMode := .draining, rxq := [0x41] }, _, rfl, rfl, by decide⟩
theorem witness_ActiveChangesOnlyByPublication : ∃ s t : State, s.phase = .running ∧ step s = .next t ∧
    t.active ≠ s.active :=
  ⟨{ open3 with intMode := .draining, rxq := [0xC0] }, _, rfl, rfl, by decide⟩
theorem witness_HandlerExclusiveChangesOnlyEnabling : Instr.cmdTake.agent = .con ∧ (∃ s : State,
    s.conRun = none ∧ s.cfg.handlerExclusive = true ∧ s.intMode = .draining) ∧
    (∃ t, exec .cmdTake held = .next t) ∧ held.intMode = .idle :=
  ⟨rfl, ⟨{ start { small with handlerExclusive := true } with intMode := .draining }, rfl, rfl, rfl⟩, ⟨_, rfl⟩, rfl⟩
theorem witness_QuiescentMachineOnlyPolls : (start small).quiescent = true ∧ (start small).cfg.valid = true ∧
    (start small).phase = .running ∧ (start small).sched = [] ∧ (start small).conRun = none := by decide
theorem witness_UnscheduledStepCompletes : (start small).cfg.valid = true ∧ (start small).sched = [] ∧
    (start small).conRun = none := by decide
/-- The empty payload, and the longest that fits (`CAP` - 1 bytes, V3.6). -/
theorem witness_FramedPayloadRoundTrip : (start small).cfg.valid = true ∧ (start small).dstate = .noFrame ∧
    (start small).cursor = 0 ∧ ([] : List Byte).length < (start small).cfg.cap ∧
    (List.replicate 15 (0xC0 : Byte)).length < (start small).cfg.cap := by decide
/-- The shortest payload that is cut (V3.7), the longest that is not, and one that leaves a byte over. -/
theorem witness_OverlongFrameIsCutIntoPieces : (start small).cfg.valid = true ∧ (start small).dstate = .noFrame ∧
    (start small).cursor = 0 ∧ (start small).cfg.cap ≤ (List.replicate 16 (0xC0 : Byte)).length ∧
    (List.replicate 15 (0xC0 : Byte)).length < (start small).cfg.cap ∧
    0 < (List.replicate 17 (0xC0 : Byte)).length % (start small).cfg.cap := by decide
theorem witness_OutOfPhaseFrameIsLost : open3.cfg.valid = true ∧ open3.dstate ≠ .noFrame := by decide
theorem witness_DamagedFrameResynchronises : (start small).dstate = .noFrame ∧
    (start small).cfg.endByte ∉ [(0xDB : Byte), 0x41] := by decide
theorem witness_NoiseOutsideFramesIsDropped : (start small).dstate = .noFrame ∧
    (start small).cfg.endByte ∉ [(0x11 : Byte), 0xDB, 0xDC] := by decide
theorem witness_InvocationDrainsTheQueueInOrder : ∃ s : State, s.cfg.valid = true ∧ s.phase = .running ∧
    s.sched = [] ∧ s.intMode = .draining ∧ s.rxq = [0xC0, 0x41] :=
  ⟨{ start small with intMode := .draining, rxq := [0xC0, 0x41] }, by decide, rfl, rfl, rfl, rfl⟩
/-- A finite line of three bytes, and an infinite one. -/
theorem witness_FeedDeliversTheWholeLine : ∃ s : State, s.cfg.valid = true ∧ s.phase = .running ∧ s.sched = [] ∧
    s.intMode = .idle ∧ s.irqEn = true ∧ s.irqMask = false ∧ s.rxPend = 0 ∧ s.rxq = [] ∧
    s.line = ⟨[0xC0, 0x41, 0xC0], none⟩ ∧ ({ s with line := ⟨[0xC0], some 0⟩ } : State).line.endless ≠ none :=
  ⟨{ start small with line := ⟨[0xC0, 0x41, 0xC0], none⟩ }, by decide⟩
/-- P4: twelve further header bytes and four data bytes; and as many data bytes as `LEN_LIMIT` allows. -/
theorem witness_WellFormedDataRequestPassesItsChecks : (start wide).cfg.valid = true ∧ ConsumerFree (start wide) ∧
    (start wide).dstate = .noFrame ∧ (start wide).cursor = 0 ∧
    (List.replicate 12 (0x00 : Byte)).length + 4 = wide.dataHdr ∧
    wide.dataHdr + [(0xC0 : Byte), 0xDB, 0x11, 0xDC].length ≤ wide.lenLimit ∧
    wide.dataHdr + (List.replicate 8 (0x00 : Byte)).length = wide.lenLimit ∧
    4 + wide.dataHdr + (List.replicate 8 (0x00 : Byte)).length < wide.cap :=
  ⟨by decide, free_start wide, rfl, rfl, by decide, by decide, by decide, by decide⟩
/-- The last byte of a word, and the byte before it. -/
theorem witness_NextByteReadsTheBufferNow : ∃ (s t : State) (r q : ByteRun),
    s.conRun = some r ∧ s.heldOff = false ∧ nextOffset s.cfg r.kind r.done = some 7 ∧ 7 < s.cfg.cap ∧
    nextOffset s.cfg r.kind (r.done ++ [s.byteAt r.idx 7]) = none ∧
    t.conRun = some q ∧ t.heldOff = false ∧ nextOffset t.cfg q.kind q.done = some 6 ∧ 6 < t.cfg.cap ∧
    nextOffset t.cfg q.kind (q.done ++ [t.byteAt q.idx 6]) ≠ none :=
  ⟨{ held with conRun := some ⟨.rd32 4, .b0, [0xC0, 0xDB, 0x11]⟩ },
    { held with conRun := some ⟨.rd32 4, .b0, [0xC0, 0xDB]⟩ }, ⟨.rd32 4, .b0, [0xC0, 0xDB, 0x11]⟩,
    ⟨.rd32 4, .b0, [0xC0, 0xDB]⟩, by decide⟩
/-- `CK.DATA` about to read offset 3: `dlen` = 28 ends with the buffer (`CAP` = 32), `dlen` = 29 passes it. -/
theorem witness_NextByteReadsTheBufferNow_data : ∃ (s : State) (r q : ByteRun), s.heldOff = false ∧
    s.cfg.valid = true ∧ nextOffset s.cfg r.kind r.done = some 3 ∧ nextOffset s.cfg q.kind q.done = some 3 ∧
    3 < s.cfg.cap ∧ dataPast s.cfg { r with done := r.done ++ [s.byteAt r.idx 3] } = false ∧
    nextOffset s.cfg r.kind (r.done ++ [s.byteAt r.idx 3]) = some 4 ∧
    dataPast s.cfg { q with done := q.done ++ [s.byteAt q.idx 3] } = true :=
  ⟨base, ⟨.data, .b0, [0x39, 28]⟩, ⟨.data, .b0, [0x39, 29]⟩, by decide⟩
/-- A read held off (R170), and one whose next offset is the first past the buffer. -/
theorem witness_NextByteReadsTheBufferNow_stops : ∃ (s : State) (r : ByteRun), s.conRun = some r ∧
    s.heldOff = true ∧ nextOffset s.cfg r.kind r.done = some 16 ∧ s.cfg.cap ≤ 16 :=
  ⟨{ start { small with handlerExclusive := true } with
      intMode := .draining, conRun := some ⟨.rd16 15, .b0, [0x00]⟩ }, ⟨.rd16 15, .b0, [0x00]⟩, by decide⟩
theorem witness_SplitReadAgreesWithAtomicRead : base.cfg.valid = true ∧ (∃ t, exec (.ckData 0) base = .next t) ∧
    (∃ t, exec (.bufRd32 0 28) base = .next t) ∧ ∃ t, exec (.ckSum 0 32 0) base = .next t :=
  ⟨by decide, ⟨_, rfl⟩, ⟨_, rfl⟩, ⟨_, rfl⟩⟩

end Sys2Proof.Tests
end

section
/-! The scope of the block (00_scope.md): the table's words, what a step is when nothing is scheduled, and the
delivery of the line. -/

namespace Sys2Proof.Machine

/-! ### The run -/

/-- A run of `j + k` steps is a run of `k` steps from where `j` steps lead. -/
theorem core_run_add {s t : State} {j : Nat} (k : Nat) (h : Host.Core.run core j s = .next t) :
    Host.Core.run core (j + k) s = Host.Core.run core k t := by
  induction j generalizing s with
  | zero =>
    cases h
    rw [Nat.zero_add]
  | succ j ih =>
    rw [Nat.succ_add]
    simp only [Host.Core.run] at h ⊢
    cases hs : core.step s with
    | next u =>
      rw [hs] at h
      exact ih h
    | fault r => exact nomatch r
    | refused r =>
      rw [hs] at h
      cases h

/-- A run whose first step completes goes on from the state that step gives. -/
theorem core_run_succ {s t : State} (k : Nat) (h : step s = .next t) :
    Host.Core.run core (k + 1) s = Host.Core.run core k t := by
  have hs : core.step s = .next t := h
  simp only [Host.Core.run, hs]

/-! ### The unscheduled step (log 2), one lemma for each move of `feedMove` -/

/-- A run that has had its `RESET`, under a valid configuration, with nothing scheduled. -/
structure Unscheduled (s : State) : Prop where
  valid : s.cfg.valid = true
  running : s.phase = .running
  empty : s.sched = []

theorem step_of_feedMove_op {s : State} {i : Instr} (hu : Unscheduled s) (hm : feedMove s = .op i)
    (hi : i.insidePop = false) : step s = exec i s := by
  simp [step, stepMachine, runMove, hu.valid, hu.running, hu.empty, hm, hi]

/-- A byte is on the line and nothing else is to be done: it arrives (R164). -/
theorem step_push {s : State} {b : Byte} {rest : Line} (hu : Unscheduled s) (hm : s.intMode = .idle)
    (he : s.enterEnabled = false) (hq : s.rxq = []) (hl : s.line.next = some (b, rest)) :
    step s = .next { s with rxq := arrive b s, line := rest } := by
  rw [step_of_feedMove_op (i := .envPush b) hu (by simp [feedMove, hu.running, hm, he, hq, hl]) rfl]
  simp [exec, execEnvPush, hl]

/-- The queue holds a byte and no condition is pending: `DATA` is raised (R166). -/
theorem step_raise {s : State} (hu : Unscheduled s) (hm : s.intMode = .idle) (hq : s.rxq ≠ [])
    (hp : s.rxPend = 0) : step s = .next { s with rxPend := 0b01 } := by
  have he : s.enterEnabled = false := by simp [State.enterEnabled, hp]
  rw [step_of_feedMove_op (i := .envRaise .data) hu (by simp [feedMove, hu.running, hm, he, hq, hp]) rfl]
  simp [exec, execEnvRaise, pendBit, hp]

/-- The handler can be entered: it is (R161). -/
theorem step_enter {s : State} (hu : Unscheduled s) (he : s.enterEnabled = true) :
    step s = .next (enterHandler s) := by
  have hm : s.intMode = .idle := by
    simp only [State.enterEnabled, Bool.and_eq_true, decide_eq_true_eq] at he
    obtain ⟨⟨⟨hm, -⟩, -⟩, -⟩ := he
    exact hm
  rw [step_of_feedMove_op (i := .intEnter) hu (by simp [feedMove, hu.running, hm, he]) rfl]
  simp [exec, execIntEnter, he]

/-- The handler drains a queue that holds a byte: the byte is accepted (R162). -/
theorem step_pop {s : State} {b : Byte} {q : List Byte} (hu : Unscheduled s) (hm : s.intMode = .draining)
    (hq : s.rxq = b :: q) : step s = .next (acceptByte b { s with rxq := q }) := by
  rw [step_of_feedMove_op (i := .intPop) hu (by simp [feedMove, hu.running, hm, hq]) rfl]
  simp [exec, execIntPop, hm, hq]

/-- The handler has drained the queue: it is left (R163). -/
theorem step_exit {s : State} (hu : Unscheduled s) (hm : s.intMode = .draining) (hq : s.rxq = []) :
    step s = .next (leaveHandler s) := by
  rw [step_of_feedMove_op (i := .intExit) hu (by simp [feedMove, hu.running, hm, hq]) rfl]
  simp [exec, execIntExit, hm, hq]

/-! ### Quiescence (R15) -/

theorem quiescent_iff (s : State) :
    s.quiescent = true ↔ s.line.next = none ∧ s.rxq = [] ∧ s.intMode = .idle ∧ s.rxPend = 0 := by
  simp [State.quiescent, line_next_none_iff, and_assoc]

/-- A quiescent machine polls (R180). -/
theorem step_poll {s : State} (hu : Unscheduled s) (hs : s.quiescent = true) (hr : s.conRun = none) :
    step s = .next (s.answer (.cmd s.cmd)) := by
  obtain ⟨hl, hq, hm, hp⟩ := (quiescent_iff s).1 hs
  have he : s.enterEnabled = false := by simp [State.enterEnabled, hp]
  have hf : ConsumerFree s := ⟨hr, by simp [State.heldOff, hm]⟩
  rw [step_of_feedMove_op (i := .cmdPoll) hu (by simp [feedMove, hu.running, hm, he, hq, hl, hr]) rfl]
  exact asConsumer_free hf _

/-! ### What `ACCEPT` does not look at -/

/-- Acting on an outcome neither reads nor writes the intake's registers and the line. -/
theorem settle_intake (r : DState × DecOut) (s : State) (p : BitVec 2) (m : IntMode) (q : List Byte) (l : Line) :
    settle r { s with rxPend := p, intMode := m, rxq := q, line := l } =
      { settle r s with rxPend := p, intMode := m, rxq := q, line := l } := by
  obtain ⟨d, o⟩ := r
  cases o with
  | none => rfl
  | done => rfl
  | byte v =>
    rw [settle_byte, settle_byte]
    split <;> rfl

/-- `ACCEPT` neither reads nor writes the intake's registers and the line (R141). -/
theorem acceptByte_intake (b : Byte) (s : State) (p : BitVec 2) (m : IntMode) (q : List Byte) (l : Line) :
    acceptByte b { s with rxPend := p, intMode := m, rxq := q, line := l } =
      { acceptByte b s with rxPend := p, intMode := m, rxq := q, line := l } :=
  settle_intake _ s p m q l

theorem acceptByte_setLine (b : Byte) (s : State) (l : Line) :
    acceptByte b { s with line := l } = { acceptByte b s with line := l } := by
  obtain ⟨hp, hm, -, -, hq, -⟩ := acceptByte_outside b s
  simp only [hp, hm, hq]
  exact acceptByte_intake b s s.rxPend s.intMode s.rxq l

@[simp] theorem acceptAll_line (bs : List Byte) (s : State) : (acceptAll bs s).line = s.line := by
  obtain ⟨-, -, -, -, -, -, hl, -⟩ := acceptAll_outside bs s
  exact hl

/-! ### Delivery of the line, byte by byte -/

/-- Between two bytes of the line: the unscheduled machine with the interrupt enabled and unmasked, the handler left,
nothing pending and nothing queued. -/
structure Listening (s : State) : Prop extends Unscheduled s where
  idle : s.intMode = .idle
  enabled : s.irqEn = true
  unmasked : s.irqMask = false
  settled : s.rxPend = 0
  drained : s.rxq = []

theorem Listening.setLine {s : State} (h : Listening s) (l : Line) : Listening { s with line := l } :=
  ⟨⟨h.valid, h.running, h.empty⟩, h.idle, h.enabled, h.unmasked, h.settled, h.drained⟩

/-- Between two bytes the machine stays so when bytes are accepted. -/
theorem Listening.afterAccept {s : State} (h : Listening s) (bs : List Byte) : Listening (acceptAll bs s) := by
  obtain ⟨hp, hm, he, hk, hq, hc, -, -, hs, hr, -, -⟩ := acceptAll_outside bs s
  exact ⟨⟨hc ▸ h.valid, hr.trans h.running, hs.trans h.empty⟩, hm.trans h.idle, he.trans h.enabled,
    hk.trans h.unmasked, hp.trans h.settled, hq.trans h.drained⟩

/-- Between two bytes the machine is quiescent exactly when the line is exhausted. -/
theorem Listening.quiescent_eq {s : State} (h : Listening s) : s.quiescent = s.line.exhausted := by
  simp [State.quiescent, h.drained, h.idle, h.settled]

/-- The five steps of one byte: it arrives, `DATA` is raised, the handler is entered, accepts the byte, is left. -/
theorem run_five_delivers {s : State} {b : Byte} {rest : Line} (h : Listening s)
    (hl : s.line.next = some (b, rest)) :
    Host.Core.run core 5 s = .next (acceptByte b { s with line := rest }) := by
  have hu (p : BitVec 2) (m : IntMode) (q : List Byte) (l : Line) :
      Unscheduled { s with rxPend := p, intMode := m, rxq := q, line := l } := ⟨h.valid, h.running, h.empty⟩
  have harr : arrive b s = [b] := by
    have := (config_facts h.valid).queue
    simp [arrive, h.drained, Nat.lt_of_lt_of_le Nat.zero_lt_one this]
  have hpush : step s = .next { s with rxq := [b], line := rest } := by
    rw [step_push h.toUnscheduled h.idle (by simp [State.enterEnabled, h.settled]) h.drained hl, harr]
  have hraise : step { s with rxq := [b], line := rest } = .next { s with rxPend := 0b01, rxq := [b], line := rest } :=
    step_raise (hu s.rxPend s.intMode [b] rest) h.idle (List.cons_ne_nil b []) h.settled
  have henter : step { s with rxPend := 0b01, rxq := [b], line := rest } =
      .next { s with rxPend := 0, intMode := .draining, rxq := [b], line := rest } :=
    step_enter (hu 0b01 s.intMode [b] rest) (by simp [State.enterEnabled, h.idle, h.enabled, h.unmasked])
  have hpop : step { s with rxPend := 0, intMode := .draining, rxq := [b], line := rest } =
      .next { acceptByte b s with rxPend := 0, intMode := .draining, rxq := [], line := rest } := by
    rw [← acceptByte_intake]
    exact step_pop (hu 0 .draining [b] rest) rfl rfl
  have hexit : step { acceptByte b s with rxPend := 0, intMode := .draining, rxq := [], line := rest } =
      .next { acceptByte b s with rxPend := 0, intMode := .idle, rxq := [], line := rest } := by
    have ha := (h.afterAccept [b]).toUnscheduled
    exact step_exit ⟨ha.valid, ha.running, ha.empty⟩ rfl rfl
  have hback : { acceptByte b s with rxPend := 0, intMode := .idle, rxq := [], line := rest } =
      acceptByte b { s with line := rest } := by
    rw [← acceptByte_intake, ← h.settled, ← h.idle, ← h.drained]
  rw [core_run_succ 4 hpush, core_run_succ 3 hraise, core_run_succ 2 henter, core_run_succ 1 hpop,
    core_run_succ 0 hexit, hback]
  rfl

/-- Five steps for each of the first `n` bytes of the line accept those bytes in order (R93, R167). -/
theorem run_delivers_split (n : Nat) {s : State} (h : Listening s) :
    Host.Core.run core (5 * (s.line.split n).1.length) s =
      .next (acceptAll (s.line.split n).1 { s with line := (s.line.split n).2 }) := by
  induction n generalizing s with
  | zero => rfl
  | succ n ih =>
    cases hn : s.line.next with
    | none =>
      rw [line_split_none hn]
      rfl
    | some p =>
      obtain ⟨b, rest⟩ := p
      have hline : (acceptByte b { s with line := rest }).line = rest := acceptAll_line [b] _
      have ih := ih ((h.setLine rest).afterAccept [b])
      rw [acceptAll_cons, acceptAll_nil, hline, ← acceptByte_setLine] at ih
      rw [line_split_next hn, List.length_cons, Nat.mul_succ, Nat.add_comm,
        core_run_add _ (run_five_delivers h hn), ih, acceptAll_cons]

/-- Settles O57: the five steps of one byte, by induction on the number of bytes; then the invariant between two
bytes says when the machine is quiescent. -/
theorem feedDeliversTheWholeLine : Obligations.FeedDeliversTheWholeLine := by
  intro s n hv hr hs hm he hk hp hq
  have h : Listening s := ⟨⟨hv, hr, hs⟩, hm, he, hk, hp, hq⟩
  have ht : (acceptAll (s.line.split n).1 { s with line := (s.line.split n).2 }).quiescent =
      (s.line.split n).2.exhausted := by
    rw [((h.setLine _).afterAccept _).quiescent_eq, acceptAll_line]
  refine ⟨run_delivers_split n h, fun l hl hn => ?_, fun hi => ?_⟩
  · rw [ht, hl, hn, line_split_finite]
    exact ⟨rfl, rfl⟩
  · obtain ⟨hlen, hrest⟩ := line_split_endless (Option.isSome_iff_ne_none.2 hi) n
    refine ⟨hlen, ?_⟩
    rw [ht, Line.exhausted, ← Option.not_isSome, hrest, Bool.not_true, Bool.and_false]

/-! ### The table's words, the constraints, the quiescent machine -/

/-- Settles O1: each word is one raw byte, which the first row of R81 that fits it decodes. -/
theorem tableWordsDecodeToTheirRows : Obligations.TableWordsDecodeToTheirRows := by
  unfold Obligations.TableWordsDecodeToTheirRows
  decide

theorem step_of_invalid {s : State} (h : s.cfg.valid = false) : step s = .refused .badConfiguration := by
  simp [step, stepMachine, h]

/-- Settles O40: each constraint broken contradicts a fact a valid configuration gives. -/
theorem brokenConfigurationIsRefused : Obligations.BrokenConfigurationIsRefused := by
  intro s h
  refine step_of_invalid (Bool.eq_false_iff.2 fun hv => ?_)
  have f := config_facts hv
  rcases h with hcodes | hcap | hhdr | hlim | herr | hlen
  · simp [f.end_ne_esc, f.end_ne_escEnd, f.end_ne_escEsc, f.esc_ne_escEnd, f.esc_ne_escEsc,
      f.escEnd_ne_escEsc] at hcodes
  · exact Nat.not_lt.2 f.cap_holds_limit hcap
  · exact Nat.not_lt.2 f.limit_holds_header hhdr
  · exact Nat.not_lt.2 f.limit_fits hlim
  · exact herr f.errors
  · exact Nat.not_lt.2 f.header_holds_length hlen

/-- Settles O49: nothing is pending, the handler is left and the queue is empty, so no step of the intake is enabled
and the poll is what remains. -/
theorem quiescentMachineOnlyPolls : Obligations.QuiescentMachineOnlyPolls := by
  intro s hs
  obtain ⟨-, -, hm, hp⟩ := (quiescent_iff s).1 hs
  refine ⟨?_, ?_, ?_, fun hv hr hsch hc => step_poll ⟨hv, hr, hsch⟩ hs hc⟩
  · simp [exec, execIntEnter, State.enterEnabled, hp]
  · simp [exec, execIntPop, hm]
  · simp [exec, execIntExit, hm]

end Sys2Proof.Machine
end

section
/-! The state of the block (10_state.md): the reset values, the invariant and its preservation by every step, and what
each agent's operations and each step leave unchanged. -/

namespace Sys2Proof.Machine

/-! ### The state after `RESET` (R36, R250) -/

@[simp] theorem byteAt_resetWith (c : Config) (q : List Byte) (line : Line) (m : List Move) (x : BufIdx) (k : Nat) :
    (State.resetWith c q line m).byteAt x k = 0 := by
  cases x <;> rfl

/-- Settles O38: each item is one of the fields that `State.resetWith` fixes. -/
theorem resetValues : Obligations.ResetValues := by
  intro c q line m s
  exact ⟨byteAt_resetWith c q line m, rfl, rfl, rfl, rfl, rfl, rfl, rfl, rfl, rfl⟩

theorem resetWith_runningInv {c : Config} (h : c.valid = true) (q : List Byte) (line : Line) (m : List Move) :
    RunningInv (State.resetWith c q line m) where
  cursor_lt := Nat.lt_of_lt_of_le (Nat.add_pos_left (by decide) _) (config_facts h).cap_holds_limit
  handoff := .inl rfl
  queue := List.length_take_le ..
  outside := fun _ => rfl
  canon0 := rfl
  canon1 := rfl
  range0 := nofun
  range1 := nofun
  run := nofun

/-- Settles O43: both buffers are empty, the cursor is zero and the queue is cut to its depth. -/
theorem resetStateSatisfiesInvariant : Obligations.ResetStateSatisfiesInvariant := by
  have hdefault : Config.default.valid = true := by decide
  exact ⟨fun c q line m hc _ => resetWith_runningInv hc q line m, fun _ => resetWith_runningInv hdefault [] _ []⟩

/-! ### Acting on an outcome (R141 to R144) -/

/-- Only the outcome `BYTE(v)` changes a byte, and only the one at the cursor of the active buffer. -/
theorem byteAt_settle_unless_stored {r : DState × DecOut} {s : State} {x : BufIdx} {k : Nat}
    (h : ∀ v, r.2 = .byte v → x ≠ s.active ∨ k ≠ s.cursor) : (settle r s).byteAt x k = s.byteAt x k := by
  obtain ⟨d, o⟩ := r
  cases o with
  | none => exact byteAt_dstate s d x k
  | done => exact byteAt_publishedState s d x k
  | byte v => exact byteAt_settle_other _ s (h v rfl)

/-- An outcome leaves the hand-off alone, or publishes the active buffer (R144). -/
theorem settle_publication_cases (r : DState × DecOut) (s : State) :
    ((settle r s).active = s.active ∧ (settle r s).cmd = s.cmd) ∨
    ((settle r s).active = otherBuf s.active ∧ (settle r s).cmd = some s.active ∧ (settle r s).cursor = 0) := by
  obtain ⟨d, o⟩ := r
  cases o with
  | none => exact .inl ⟨rfl, rfl⟩
  | done => exact .inr ⟨rfl, rfl, rfl⟩
  | byte v =>
    rw [settle_byte]
    split
    · exact .inr ⟨rfl, rfl, rfl⟩
    · exact .inl ⟨rfl, rfl⟩

/-! ### What a step is -/

/-- A step is taken at the state without the move it makes: it has the effect of an operation, or goes on with a
byte-by-byte read. -/
theorem step_next_effect {s t : State} (h : step s = .next t) :
    s.cfg.valid = true ∧ ∃ rest,
      (∃ i, Effect { s with sched := rest } i t) ∨
        s.phase = .running ∧
          ((∃ i, beginSplit i { s with sched := rest } = .next t) ∨
            readNextByte { s with sched := rest } = .next t) := by
  obtain ⟨hv, hmove⟩ := step_next_cases h
  obtain ⟨m, rest, hm⟩ : ∃ m rest, runMove m { s with sched := rest } = .next t := by
    obtain ⟨m, rest, -, hm⟩ | ⟨-, hm⟩ := hmove
    · exact ⟨m, rest, hm⟩
    · exact ⟨feedMove s, s.sched, hm⟩
  refine ⟨hv, rest, ?_⟩
  obtain ⟨-, -, hx⟩ | ⟨hp, ⟨i, -, -, hx⟩ | ⟨i, -, hx⟩ | ⟨-, hx⟩⟩ := runMove_next_cases hm
  · exact .inl ⟨_, exec_next_effect hx⟩
  · exact .inl ⟨i, exec_next_effect hx⟩
  · exact .inr ⟨hp, .inl ⟨i, hx⟩⟩
  · exact .inr ⟨hp, .inr hx⟩

/-- A step has the effect of an operation, or changes nothing but its schedule and the consumer's own fields. -/
theorem step_next_effect_or_frame {s t : State} (h : step s = .next t) :
    ∃ rest, (∃ i, Effect { s with sched := rest } i t) ∨
      t = { s with sched := rest, conRun := t.conRun, conResult := t.conResult } := by
  obtain ⟨-, rest, he | ⟨-, ⟨i, hb⟩ | hn⟩⟩ := step_next_effect h
  · exact ⟨rest, .inl he⟩
  · exact ⟨rest, .inr (beginSplit_frame hb)⟩
  · exact ⟨rest, .inr (readNextByte_frame hn)⟩

/-! ### The invariant under updates of the state (R34) -/

/-- Replacing a buffer by contents in canonical form and in range. -/
theorem RunningInv.setBuf {s : State} (h : RunningInv s) (x : BufIdx) {m : Memory} (hw : Memory.wf m = true)
    (hr : Memory.inRange s.cfg.cap m) : RunningInv (s.setBuf x m) := by
  cases x with
  | b0 => exact { h with canon0 := hw, range0 := hr }
  | b1 => exact { h with canon1 := hw, range1 := hr }

theorem RunningInv.buf_wf {s : State} (h : RunningInv s) (x : BufIdx) : Memory.wf (s.buf x) = true := by
  cases x with
  | b0 => exact h.canon0
  | b1 => exact h.canon1

theorem RunningInv.buf_inRange {s : State} (h : RunningInv s) (x : BufIdx) :
    Memory.inRange s.cfg.cap (s.buf x) := by
  cases x with
  | b0 => exact h.range0
  | b1 => exact h.range1

/-- Storing at the cursor, before the cursor moves. -/
theorem RunningInv.writeAtCursor {s : State} (h : RunningInv s) (v : Byte) :
    RunningInv (s.setBuf s.active ((s.buf s.active).write s.cursor v)) :=
  h.setBuf s.active (memory_write_wf (h.buf_wf _) _ v) (memory_write_inRange (h.buf_inRange _) h.cursor_lt v)

/-- Publication meets the invariant whatever `CMD` held (R144). -/
theorem RunningInv.published {s : State} (h : RunningInv s) (d : DState) : RunningInv (publishedState s d) :=
  { h with
    cursor_lt := Nat.zero_lt_of_lt h.cursor_lt
    handoff := .inr (congrArg some (otherBuf_otherBuf s.active).symm)
    outside := fun _ => rfl }

/-- An outcome keeps the invariant: the decoder is outside a frame afterwards only if it was before and nothing was
stored, or if the outcome is `DONE`. -/
theorem RunningInv.settled {s : State} (h : RunningInv s) {r : DState × DecOut}
    (hd : r.1 = .noFrame → s.dstate = .noFrame ∧ r.2 = .none ∨ r.2 = .done) : RunningInv (settle r s) := by
  obtain ⟨d, o⟩ := r
  cases o with
  | none =>
    refine { h with outside := fun hf => h.outside ?_ }
    obtain ⟨hs, -⟩ | ho := hd hf
    · exact hs
    · cases ho
  | done => exact h.published d
  | byte v =>
    rw [settle_byte]
    split
    · exact h.writeAtCursor v |>.published d
    · next hc =>
      have hlt := h.cursor_lt
      refine { h.writeAtCursor v with cursor_lt := show s.cursor + 1 < s.cfg.cap by omega, outside := fun hf => ?_ }
      obtain ⟨-, ho⟩ | ho := hd hf
      · cases ho
      · cases ho

/-- An arriving byte keeps the queue within its depth (R164, R165). -/
theorem arrive_length_le {b : Byte} {s : State} (h : s.rxq.length ≤ s.cfg.fifoDepth) :
    (arrive b s).length ≤ s.cfg.fifoDepth := by
  unfold arrive
  split
  · next hlt => rwa [List.length_append]
  · exact h

/-- Every operation's effect keeps the invariant of a run. -/
theorem Effect.keeps_runningInv {s t : State} {i : Instr} (he : Effect s i t) (hv : s.cfg.valid = true)
    (h : s.phase = .running → RunningInv s) (ht : t.phase = .running) : RunningInv t := by
  cases he with
  | receive r hi ha hr hd =>
    obtain ⟨-, -, -, -, -, -, -, -, -, hp, -⟩ := settle_outside r s
    exact (h (hp ▸ ht)).settled hd
  | pop b q hm hq =>
    obtain ⟨-, -, -, -, -, -, -, -, -, hp, -⟩ := acceptByte_outside b { s with rxq := q }
    have hs := h (hp ▸ ht)
    have hlen : q.length ≤ s.cfg.fifoDepth := by
      have hle := hs.queue
      rw [hq, List.length_cons] at hle
      exact Nat.le_of_succ_le hle
    have hu : RunningInv { s with rxq := q } := { hs with queue := hlen }
    exact hu.settled slipStep_noFrame_outcome
  | push b rest hl => exact { h ht with queue := arrive_length_le (h ht).queue }
  | take hf => exact { h ht with handoff := .inl rfl }
  | enter he => exact { h ht with }
  | leave hm hq => exact { h ht with }
  | raise c => exact { h ht with }
  | read r ha hf => exact { h ht with }
  | enable hf => exact { h ht with }
  | mask hf => exact { h ht with }
  | unmask hf => exact { h ht with }
  | reset hp => exact resetWith_runningInv hv _ _ _

/-! ### The invariant under the steps of a byte-by-byte read (R54, R56, R206) -/

theorem offset_lt_of_left {base m n k : Nat} (h : (if m < n then some (base + m) else none) = some k) :
    k < base + n := by
  split at h
  · cases h
    omega
  · cases h

/-- The offsets of `CK.DATA` stay inside the buffer: 1 to 3 by the check at the start, the others by the check of
`dlen`. -/
theorem nextDataOffset_lt_cap {c : Config} {done : List Byte} {k : Nat} (hc : 4 ≤ c.dataHdr) (hr : 4 ≤ c.cap)
    (hd : 3 ≤ done.length → 4 + (dlenSoFar done).toNat ≤ c.cap) (hk : nextDataOffset c done = some k) :
    k < c.cap := by
  unfold nextDataOffset hdrLen at hk
  generalize (dlenSoFar done).toNat = dlen at hd hk
  simp only at hk
  split at hk
  · cases hk
    omega
  have hd := hd (by omega)
  split at hk
  · cases hk
  split at hk
  · cases hk
    omega
  split at hk
  · cases hk
    omega
  · cases hk

/-- The next offset of a read lies inside the buffer, by the checks of R54 and R206. -/
theorem nextOffset_lt_cap {c : Config} {r : ByteRun} {k : Nat} (hv : c.valid = true)
    (hr : r.kind.range.1 + r.kind.range.2 ≤ c.cap)
    (hd : r.kind = .data → 3 ≤ r.done.length → hdrLen + (dlenSoFar r.done).toNat ≤ c.cap)
    (hk : nextOffset c r.kind r.done = some k) : k < c.cap := by
  obtain ⟨kind, idx, done⟩ := r
  cases kind with
  | rd16 _ => exact Nat.lt_of_lt_of_le (offset_lt_of_left hk) hr
  | rd32 _ => exact Nat.lt_of_lt_of_le (offset_lt_of_left hk) hr
  | len => exact Nat.lt_of_lt_of_le (offset_lt_of_left hk) hr
  | hardlen => exact Nat.lt_of_lt_of_le (offset_lt_of_left hk) hr
  | sum _ _ => exact Nat.lt_of_lt_of_le (offset_lt_of_left hk) hr
  | fixlen _ => exact Nat.lt_of_lt_of_le (offset_lt_of_left hk) hr
  | data => exact nextDataOffset_lt_cap (config_facts hv).header_holds_length hr (hd rfl) hk

/-- `CK.DATA` goes on after offset 3 only with a `dlen` that stays inside the buffer (R206). -/
theorem dlen_in_range_of_not_dataPast {c : Config} {r : ByteRun} (h : dataPast c r = false) (hk : r.kind = .data)
    (hl : r.done.length = 3) : hdrLen + (dlenSoFar r.done).toNat ≤ c.cap := by
  simpa [dataPast, hk, hl] using h

/-- Once offsets 1 to 3 are read, further bytes do not change `dlen`. -/
theorem dlenSoFar_append {done : List Byte} (b : Byte) (h : 3 ≤ done.length) :
    dlenSoFar (done ++ [b]) = dlenSoFar done := by
  have get {j : Nat} (hj : j < 3) : readSoFar (done ++ [b]) j = readSoFar done j :=
    List.getD_append _ _ _ _ (by omega)
  simp only [dlenSoFar, get (j := 1) (by decide), get (j := 2) (by decide)]

/-- Going on with a read whose checks have been passed keeps the invariant. -/
theorem settleRead_keeps_runningInv {r : ByteRun} {s t : State} (hv : s.cfg.valid = true) (h : RunningInv s)
    (hr : r.kind.range.1 + r.kind.range.2 ≤ s.cfg.cap)
    (hd : r.kind = .data → 3 < r.done.length → hdrLen + (dlenSoFar r.done).toNat ≤ s.cfg.cap)
    (ht : settleRead r s = .next t) : RunningInv t := by
  obtain ⟨hp, ⟨-, rfl⟩ | ⟨k, hk, rfl⟩⟩ := settleRead_next_cases ht
  · exact { h with run := nofun }
  · have hd' : r.kind = .data → 3 ≤ r.done.length → hdrLen + (dlenSoFar r.done).toNat ≤ s.cfg.cap := by
      intro hkind hl
      rcases Nat.eq_or_lt_of_le hl with hl | hl
      · exact dlen_in_range_of_not_dataPast hp hkind hl.symm
      · exact hd hkind hl
    refine { h with run := fun q hq => ?_ }
    cases hq
    exact ⟨⟨k, hk, nextOffset_lt_cap hv hr hd' hk⟩, hr, hd'⟩

theorem beginSplit_keeps_runningInv {i : Instr} {s t : State} (hv : s.cfg.valid = true) (h : RunningInv s)
    (ht : beginSplit i s = .next t) : RunningInv t := by
  obtain ⟨_, kind, x, -, -, -, hr, ht⟩ := beginSplit_next ht
  exact settleRead_keeps_runningInv (r := ⟨kind, x, []⟩) hv h hr (fun _ hl => absurd hl (Nat.not_lt_zero 3)) ht

theorem readNextByte_keeps_runningInv {s t : State} (hv : s.cfg.valid = true) (h : RunningInv s)
    (ht : readNextByte s = .next t) : RunningInv t := by
  obtain ⟨r, hrun, -, hcase⟩ := readNextByte_next ht
  obtain ⟨-, hr, hd⟩ := h.run r hrun
  obtain ⟨-, ht⟩ | ⟨k, -, -, ht⟩ := hcase
  · exact settleRead_keeps_runningInv hv h hr (fun hk hl => hd hk hl.le) ht
  · refine settleRead_keeps_runningInv (r := { r with done := r.done ++ [s.byteAt r.idx k] }) hv h hr
      (fun hkind hl => ?_) ht
    have hl' : 3 ≤ r.done.length := by
      rw [List.length_append] at hl
      exact Nat.le_of_lt_succ hl
    rw [dlenSoFar_append _ hl']
    exact hd hkind hl'

/-- Settles O44: an operation by its effect, a step of a byte-by-byte read by the checks it has passed. -/
theorem stepKeepsTheInvariant : Obligations.StepKeepsTheInvariant := by
  intro s t hs hstep ht
  obtain ⟨hv, rest, hcase⟩ := step_next_effect hstep
  have hu : s.phase = .running → RunningInv { s with sched := rest } := fun hp => { hs hp with }
  obtain ⟨i, he⟩ | ⟨hp, ⟨i, hb⟩ | hn⟩ := hcase
  · exact he.keeps_runningInv hv hu ht
  · exact beginSplit_keeps_runningInv (s := { s with sched := rest }) hv (hu hp) hb
  · exact readNextByte_keeps_runningInv (s := { s with sched := rest }) hv (hu hp) hn

/-! ### Frames of the operations (R21, R33) -/

theorem storeAddress_of_stores {s : State} {i : Instr} {b v : Byte} (hb : receivedByte s i = some b)
    (hv : (slipStep s.cfg s.dstate b).2 = .byte v) : storeAddress i s = some (s.active, s.cursor) := by
  simp [storeAddress, hb, hv]

/-- Acting on the outcome of the byte an operation processes changes at most the byte at its store address. -/
theorem byteAt_settle_unless_storeAddress {s : State} {i : Instr} {b : Byte} {x : BufIdx} {k : Nat}
    (hb : receivedByte s i = some b) (h : storeAddress i s ≠ some (x, k)) :
    (settle (slipStep s.cfg s.dstate b) s).byteAt x k = s.byteAt x k := by
  refine byteAt_settle_unless_stored fun v hv => ?_
  by_contra hxk
  obtain ⟨rfl, rfl⟩ : x = s.active ∧ k = s.cursor := by simpa using hxk
  exact h (storeAddress_of_stores hb hv)

/-- Settles O15: where an operation stores nothing the outcome it acts on carries no byte, and only the receive path
acts on outcomes. -/
theorem onlyTheStoreAddressChanges : Obligations.OnlyTheStoreAddressChanges := by
  intro i s t hv hreset hx x k hxk
  cases exec_next_effect hx with
  | receive r hi ha hr hd =>
    obtain ⟨b, hb, hstep⟩ := hr
    obtain rfl := hstep hv
    exact byteAt_settle_unless_storeAddress hb hxk
  | pop b q hm hq =>
    have haccept : storeAddress .intPop s = storeAddress (.accept b) { s with rxq := q } := by
      simp [storeAddress, receivedByte, hq]
    rw [haccept] at hxk
    exact byteAt_settle_unless_storeAddress (s := { s with rxq := q }) rfl hxk
  | reset => exact absurd rfl hreset
  | enter | leave | push | raise | read | take | enable | mask | unmask => exact byteAt_congr rfl rfl x k

/-- `ACCEPT` and its cases are the receive path's (R6). -/
theorem agent_of_insidePop {i : Instr} (h : i.insidePop = true) : i.agent = .rx := by
  cases i with
  | rxEnd | rxEsc | rxEscEnd | rxEscEsc | rxData | accept => rfl
  | _ => cases h

/-- Settles O16: the cases of `ACCEPT` and `INT.POP` act on an outcome, which leaves everything outside the receive
path alone. -/
theorem receiveOperationsFrame : Obligations.ReceiveOperationsFrame := by
  intro i s t hx
  have he := exec_next_effect hx
  refine ⟨fun hi => ?_, fun hi => ?_⟩
  · cases he with
    | receive r => exact settle_outside r s
    | read r ha => cases (agent_of_insidePop hi).symm.trans ha
    | pop | enter | leave | push | raise | take | enable | mask | unmask | reset => cases hi
  · subst hi
    cases he with
    | receive r hi => cases hi
    | read r ha => cases ha
    | pop b q hm hq =>
      have htail : s.rxq.tail = q := congrArg List.tail hq
      rw [htail]
      exact acceptByte_outside b _

/-! ### The access table (R33) -/

/-- No operation but `RESET` changes a byte other than the one at the cursor of the active buffer. -/
theorem Effect.byteAt_other {s t : State} {i : Instr} (he : Effect s i t) (hi : i ≠ .reset) {x : BufIdx} {k : Nat}
    (h : x ≠ s.active ∨ k ≠ s.cursor) : t.byteAt x k = s.byteAt x k := by
  cases he with
  | receive r => exact byteAt_settle_other r s h
  | pop b q => exact byteAt_settle_other _ { s with rxq := q } h
  | reset => exact absurd rfl hi
  | enter | leave | push | raise | read | take | enable | mask | unmask => exact byteAt_congr rfl rfl x k

/-- The row of the consumer. -/
theorem Effect.consumer_rights {s t : State} {i : Instr} (he : Effect s i t) (ha : i.agent = .con) :
    BuffersSame s t ∧ t.active = s.active ∧ t.cursor = s.cursor ∧ t.dstate = s.dstate ∧
      (t.cmd = s.cmd ∨ t.cmd = none) ∧ t.rxPend = s.rxPend ∧ t.intMode = s.intMode ∧
      (s.irqEn = true → t.irqEn = true) ∧ t.rxq = s.rxq ∧ t.line = s.line := by
  cases he with
  | receive r hi hrx => cases hrx.symm.trans ha
  | read => exact ⟨byteAt_congr rfl rfl, rfl, rfl, rfl, .inl rfl, rfl, rfl, id, rfl, rfl⟩
  | take => exact ⟨byteAt_congr rfl rfl, rfl, rfl, rfl, .inr rfl, rfl, rfl, id, rfl, rfl⟩
  | enable => exact ⟨byteAt_congr rfl rfl, rfl, rfl, rfl, .inl rfl, rfl, rfl, fun _ => rfl, rfl, rfl⟩
  | mask => exact ⟨byteAt_congr rfl rfl, rfl, rfl, rfl, .inl rfl, rfl, rfl, id, rfl, rfl⟩
  | unmask => exact ⟨byteAt_congr rfl rfl, rfl, rfl, rfl, .inl rfl, rfl, rfl, id, rfl, rfl⟩
  | pop | enter | leave | push | raise | reset => cases ha

/-- An outcome leaves `CMD` alone or makes it name the active buffer. -/
theorem settle_cmd_cases (r : DState × DecOut) (s : State) :
    (settle r s).cmd = s.cmd ∨ (settle r s).cmd = some s.active := by
  obtain ⟨-, hc⟩ | ⟨-, hc, -⟩ := settle_publication_cases r s
  · exact .inl hc
  · exact .inr hc

/-- The row of the receive path, but for the buffers (`Effect.byteAt_other`). -/
theorem Effect.receive_rights {s t : State} {i : Instr} (he : Effect s i t) (ha : i.agent = .rx) :
    t.irqEn = s.irqEn ∧ t.irqMask = s.irqMask ∧ (t.cmd = s.cmd ∨ t.cmd = some s.active) ∧
      (t.rxPend = s.rxPend ∨ t.rxPend = 0) ∧ (t.rxq = s.rxq ∨ t.rxq = s.rxq.tail) ∧ t.line = s.line ∧
      t.conRun = s.conRun ∧ t.conResult = s.conResult := by
  cases he with
  | receive r =>
    obtain ⟨hp, -, he, hm, hq, -, hl, -, -, -, hr, ho⟩ := settle_outside r s
    exact ⟨he, hm, settle_cmd_cases r s, .inl hp, .inl hq, hl, hr, ho⟩
  | pop b q _ hrxq =>
    obtain ⟨hp, -, he, hm, hq, -, hl, -, -, -, hr, ho⟩ := acceptByte_outside b { s with rxq := q }
    have htail : s.rxq.tail = q := congrArg List.tail hrxq
    exact ⟨he, hm, settle_cmd_cases _ { s with rxq := q }, .inl hp, .inr (hq.trans htail.symm), hl, hr, ho⟩
  | enter => exact ⟨rfl, rfl, .inl rfl, .inr rfl, .inl rfl, rfl, rfl, rfl⟩
  | leave => exact ⟨rfl, rfl, .inl rfl, .inl rfl, .inl rfl, rfl, rfl, rfl⟩
  | read r hcon => cases hcon.symm.trans ha
  | push | raise | take | enable | mask | unmask | reset => cases ha

/-- A byte arrives behind the others, or is lost (R164, R165). -/
theorem arrive_cases (b : Byte) (s : State) : arrive b s = s.rxq ∨ ∃ c, arrive b s = s.rxq ++ [c] := by
  unfold arrive
  split
  · exact .inr ⟨b, rfl⟩
  · exact .inl rfl

/-- The row of the environment. -/
theorem Effect.environment_rights {s t : State} {i : Instr} (he : Effect s i t) (ha : i.agent = .env) :
    BuffersSame s t ∧ t.active = s.active ∧ t.cursor = s.cursor ∧ t.dstate = s.dstate ∧
      t.cmd = s.cmd ∧ t.intMode = s.intMode ∧ t.irqEn = s.irqEn ∧ t.irqMask = s.irqMask ∧
      (∀ j, s.rxPend.getLsbD j = true → t.rxPend.getLsbD j = true) ∧
      (t.rxq = s.rxq ∨ ∃ b, t.rxq = s.rxq ++ [b]) ∧ (t.line = s.line ∨ ∃ b, s.line.next = some (b, t.line)) ∧
      t.conRun = s.conRun ∧ t.conResult = s.conResult := by
  cases he with
  | push b rest hl =>
    exact ⟨byteAt_congr rfl rfl, rfl, rfl, rfl, rfl, rfl, rfl, rfl, fun _ => id, arrive_cases b s, .inr ⟨b, hl⟩, rfl,
      rfl⟩
  | raise c =>
    have hset : ∀ j, s.rxPend.getLsbD j = true → (s.rxPend ||| pendBit c).getLsbD j = true := by
      intro j hj
      rw [BitVec.getLsbD_or, hj, Bool.true_or]
    exact ⟨byteAt_congr rfl rfl, rfl, rfl, rfl, rfl, rfl, rfl, rfl, hset, .inl rfl, .inl rfl, rfl, rfl⟩
  | receive r hi hrx => cases hrx.symm.trans ha
  | read r hcon => cases hcon.symm.trans ha
  | pop | enter | leave | take | enable | mask | unmask | reset => cases ha

/-- Settles O45: the three rows of the table, by the effect of the operation. -/
theorem agentsKeepTheirAccessRights : Obligations.AgentsKeepTheirAccessRights := by
  intro i s t hx
  have he := exec_next_effect hx
  refine ⟨he.consumer_rights, fun ha => ⟨fun x k hxk => he.byteAt_other ?_ hxk, he.receive_rights ha⟩,
    he.environment_rights⟩
  rintro rfl
  cases ha

/-! ### What a step leaves unchanged (R21, R22) -/

/-- In mid-run `RESET` has no effect (R250). -/
theorem Effect.ne_reset_of_running {s t : State} {i : Instr} (he : Effect s i t) (hp : s.phase = .running) :
    i ≠ .reset := by
  rintro rfl
  cases he with
  | receive r hi => cases hi
  | read r ha => cases ha
  | reset hb => cases hb.symm.trans hp

/-- Settles O46: an operation changes no other byte, and a step of a byte-by-byte read changes none. -/
theorem stepWritesOnlyTheActiveBuffer : Obligations.StepWritesOnlyTheActiveBuffer := by
  intro s t hp hstep x k hxk
  obtain ⟨rest, ⟨i, he⟩ | hf⟩ := step_next_effect_or_frame hstep
  · exact he.byteAt_other (he.ne_reset_of_running hp) hxk
  · exact byteAt_congr (congrArg State.buf0 hf) (congrArg State.buf1 hf) x k

/-- No operation but `RESET` changes `ACTIVE` without publishing. -/
theorem Effect.publication_cases {s t : State} {i : Instr} (he : Effect s i t) (hi : i ≠ .reset) :
    (t.active = s.active ∧ (t.cmd = s.cmd ∨ t.cmd = none)) ∨
    (t.active = otherBuf s.active ∧ t.cmd = some s.active ∧ t.cursor = 0) := by
  cases he with
  | receive r =>
    obtain ⟨ha, hc⟩ | hpub := settle_publication_cases r s
    · exact .inl ⟨ha, .inl hc⟩
    · exact .inr hpub
  | pop b q =>
    obtain ⟨ha, hc⟩ | hpub := settle_publication_cases (slipStep s.cfg s.dstate b) { s with rxq := q }
    · exact .inl ⟨ha, .inl hc⟩
    · exact .inr hpub
  | take => exact .inl ⟨rfl, .inr rfl⟩
  | reset => exact absurd rfl hi
  | enter | leave | push | raise | read | enable | mask | unmask => exact .inl ⟨rfl, .inl rfl⟩

/-- `FRAME_READY` is up while a command is pending (R27). -/
theorem frameReady_of_cmd {s : State} {x : BufIdx} (h : s.cmd = some x) : s.frameReady = true := by
  rw [State.frameReady, State.cmdValid, h, Option.isSome_some]

/-- Settles O47: an operation publishes or leaves `ACTIVE` alone, and a step of a byte-by-byte read leaves the hand-off
alone. -/
theorem activeChangesOnlyByPublication : Obligations.ActiveChangesOnlyByPublication := by
  intro s t hp hstep
  obtain ⟨rest, ⟨i, he⟩ | hf⟩ := step_next_effect_or_frame hstep
  · obtain hsame | ⟨ha, hc, hz⟩ := he.publication_cases (he.ne_reset_of_running hp)
    · exact .inl hsame
    · exact .inr ⟨ha, hc, hz, frameReady_of_cmd hc⟩
  · exact .inl ⟨by rw [hf], .inl (by rw [hf])⟩

end Sys2Proof.Machine
end

section
/-! The memory of the block (20_memory.md): the consumer's reads as single steps and made byte by byte, and the moves of
the schedule that start and go on with them. -/

namespace Sys2Proof.Machine

/-! ### A read made again (R57) -/

/-- A read looks at the buffers and at `CMD`, and not at the answer recorded before it (R57, log 5). -/
theorem exec_answer_eq {i : Instr} (ha : i.agent = .con) (h1 : i ≠ .cmdTake) (h2 : i ≠ .irqEnable)
    (h3 : i ≠ .irqMask) (h4 : i ≠ .irqUnmask) (s : State) (r : Result) : exec i (s.answer r) = exec i s := by
  cases i with
  | cmdPoll | bufRd8 | bufRd16 | bufRd32 | hdrOp | hdrCk | hdrLen | ckHardlen | ckSum | ckFixlen | ckData => rfl
  | cmdTake => exact absurd rfl h1
  | irqEnable => exact absurd rfl h2
  | irqMask => exact absurd rfl h3
  | irqUnmask => exact absurd rfl h4
  | rxEnd | rxEsc | rxEscEnd | rxEscEsc | rxData | accept | intEnter | intPop | intExit | envPush | envRaise | reset =>
    cases ha

/-- Settles O27: the read answers and does nothing else, and it does not look at its own answer. -/
theorem consumerReadsAreRepeatable : Obligations.ConsumerReadsAreRepeatable := by
  intro i s t ha h1 h2 h3 h4 h
  obtain ⟨-, r, rfl⟩ := exec_read_answers ha h1 h2 h3 h4 h
  exact ⟨rfl, (exec_answer_eq ha h1 h2 h3 h4 s r).trans h⟩

/-! ### The steps of a byte-by-byte read (R56, R206) -/

theorem settleRead_past {r : ByteRun} {s : State} (h : dataPast s.cfg r = true) :
    settleRead r s = .refused .dataPastCapacity := by
  rw [settleRead, if_pos h]

theorem settleRead_last {r : ByteRun} {s : State} (hp : dataPast s.cfg r = false)
    (hn : nextOffset s.cfg r.kind r.done = none) :
    settleRead r s = .next { s.answer (finishRead s.cfg r.kind r.done) with conRun := none } := by
  simp only [settleRead, hp, hn, Bool.false_eq_true, if_false]

theorem settleRead_more {r : ByteRun} {s : State} (hp : dataPast s.cfg r = false)
    (hn : nextOffset s.cfg r.kind r.done ≠ none) : settleRead r s = .next { s with conRun := some r } := by
  obtain ⟨k, hk⟩ := Option.ne_none_iff_exists'.1 hn
  simp only [settleRead, hp, hk, Bool.false_eq_true, if_false]

/-- `CK.DATA` is refused by name exactly when it has just learnt a `dlen` that passes `CAP` (R206). -/
theorem settleRead_refused_iff (r : ByteRun) (s : State) :
    settleRead r s = .refused .dataPastCapacity ↔ dataPast s.cfg r = true := by
  refine ⟨fun h => ?_, settleRead_past⟩
  by_contra hp
  have hp := Bool.eq_false_of_not_eq_true hp
  by_cases hn : nextOffset s.cfg r.kind r.done = none
  · rw [settleRead_last hp hn] at h
    cases h
  · rw [settleRead_more hp hn] at h
    cases h

section
variable {s : State} {r : ByteRun} {k : Nat} (hr : s.conRun = some r)
include hr

theorem readNextByte_heldOff (hh : s.heldOff = true) : readNextByte s = .refused .consumerHeldOff := by
  simp only [readNextByte, hr, hh, if_true]

theorem readNextByte_past (hh : s.heldOff = false) (hk : nextOffset s.cfg r.kind r.done = some k)
    (hc : s.cfg.cap ≤ k) : readNextByte s = .refused .pastCapacity := by
  simp only [readNextByte, hr, hh, hk, if_pos hc, Bool.false_eq_true, if_false]

/-- The next byte is the byte the buffer holds now (R56 (a)). -/
theorem readNextByte_in (hh : s.heldOff = false) (hk : nextOffset s.cfg r.kind r.done = some k)
    (hc : k < s.cfg.cap) :
    readNextByte s = settleRead { r with done := r.done ++ [s.byteAt r.idx k] } s := by
  simp only [readNextByte, hr, hh, hk, if_neg (Nat.not_le.2 hc), Bool.false_eq_true, if_false]

theorem asConsumer_busy (act : Host.Outcome State Fault Refusal) : asConsumer s act = .refused .consumerBusy := by
  simp only [asConsumer, hr, Option.isSome_some, if_true]

/-- In the middle of a read the consumer starts no other operation (log 12). -/
theorem exec_consumerBusy {i : Instr} (ha : i.agent = .con) : exec i s = .refused .consumerBusy := by
  cases i with
  | cmdPoll | cmdTake | bufRd8 | bufRd16 | bufRd32 | hdrOp | hdrCk | hdrLen | ckHardlen | ckSum | ckFixlen | ckData
  | irqEnable | irqMask | irqUnmask => exact asConsumer_busy hr _
  | rxEnd | rxEsc | rxEscEnd | rxEscEsc | rxData | accept | intEnter | intPop | intExit | envPush | envRaise | reset =>
    cases ha

end

/-- `dlen` becomes known with the third byte of `CK.DATA` and is the second and third of them, the lower offset the less
significant (R10, R51). -/
theorem dataPast_iff (c : Config) (r : ByteRun) :
    dataPast c r = true ↔
      r.kind = .data ∧ ∃ a b d : Byte, r.done = [a, b, d] ∧ c.cap < 4 + (b.toNat + 256 * d.toNat) := by
  have value (a b d : Byte) : (dlenSoFar [a, b, d]).toNat = b.toNat + 256 * d.toNat := le16_toNat b d
  simp only [dataPast, Bool.and_eq_true, decide_eq_true_eq, and_assoc, List.length_eq_three]
  refine and_congr_right fun _ => ⟨?_, ?_⟩
  · rintro ⟨⟨a, b, d, hd⟩, h⟩
    rw [hd, value] at h
    exact ⟨a, b, d, hd, h⟩
  · rintro ⟨a, b, d, hd, h⟩
    rw [hd, value]
    exact ⟨⟨a, b, d, rfl⟩, h⟩

/-! ### Which bytes a read takes (R56, R206) -/

/-- The offset of byte `m` of a read, if the read takes that many: one range, but for `CK.DATA`, which after the header
and the inner length goes on with the data bytes. -/
def ReadKind.offset (c : Config) (kind : ReadKind) (m : Nat) : Nat :=
  if kind = .data ∧ 7 ≤ m then hdrLen + c.dataHdr + (m - 7) else kind.range.1 + m

/-- How many bytes a read takes: those of its range, but for `CK.DATA`, which the declared length ends after the header
or takes through the data bytes. -/
def ReadKind.count (c : Config) (kind : ReadKind) (dlen : Half) : Nat :=
  if kind = .data ∧ c.dataHdr ≤ dlen.toNat then 7 + (dlen.toNat - c.dataHdr) else kind.range.2

/-- The next byte of a read, in the terms of `offset` and `count`. -/
theorem nextOffset_eq (c : Config) (kind : ReadKind) (done : List Byte) :
    nextOffset c kind done =
      if done.length < kind.count c (dlenSoFar done) then some (kind.offset c done.length) else none := by
  cases kind with
  | rd16 | rd32 | len | hardlen | sum | fixlen => simp [nextOffset, ReadKind.count, ReadKind.offset, ReadKind.range]
  | data =>
    simp only [nextOffset, nextDataOffset, ReadKind.count, ReadKind.offset, ReadKind.range, true_and]
    by_cases hl : c.dataHdr ≤ (dlenSoFar done).toNat
    · rw [if_neg (Nat.not_lt.2 hl), if_pos hl]
      by_cases h7 : done.length < 7
      · rw [if_pos h7, ite_self, if_pos (Nat.lt_add_right _ h7), if_neg (Nat.not_le.2 h7)]
      · have h7 := Nat.not_lt.1 h7
        rw [if_neg (by omega), if_neg (by omega), if_pos h7]
        simp only [Nat.sub_lt_iff_lt_add' h7]
    · rw [if_pos (Nat.not_le.1 hl), if_neg hl]
      split
      · rw [if_neg (by omega)]
      · rfl

/-- R8 (f): the inner header, of at least 4 bytes, holds the inner length, so the data bytes come after it. -/
theorem offset_lt_offset_succ {c : Config} (hc : 4 ≤ c.dataHdr) (kind : ReadKind) (m : Nat) :
    kind.offset c m < kind.offset c (m + 1) := by
  cases kind with
  | rd16 | rd32 | len | hardlen | sum | fixlen => simp [ReadKind.offset]
  | data =>
    simp only [ReadKind.offset, ReadKind.range, hdrLen, true_and]
    split <;> split <;> omega

theorem nextOffset_some {c : Config} {kind : ReadKind} {done : List Byte} {k : Nat}
    (h : nextOffset c kind done = some k) : k = kind.offset c done.length := by
  rw [nextOffset_eq] at h
  split at h
  · exact (Option.some.inj h).symm
  · cases h

theorem nextOffset_ascends {c : Config} (hv : c.valid = true) {kind : ReadKind} {done : List Byte} {b : Byte}
    {k k' : Nat} (hk : nextOffset c kind done = some k) (hk' : nextOffset c kind (done ++ [b]) = some k') : k < k' := by
  obtain rfl := nextOffset_some hk
  obtain rfl := nextOffset_some hk'
  rw [List.length_append]
  exact offset_lt_offset_succ (config_facts hv).header_holds_length kind done.length

/-- Settles O59: the lemmas on `readNextByte` and `settleRead`, one for each clause. -/
theorem nextByteReadsTheBufferNow : Obligations.NextByteReadsTheBufferNow := by
  intro s r k hr hk
  refine ⟨readNextByte_heldOff hr, fun hh => ⟨fun i => exec_consumerBusy hr, readNextByte_past hr hh hk, fun hc => ?_⟩,
    dataPast_iff s.cfg _, fun hv k' => nextOffset_ascends hv hk⟩
  rw [readNextByte_in hr hh hk hc]
  exact ⟨settleRead_refused_iff _ s, settleRead_last, settleRead_more⟩

/-! ### A read with nothing between its bytes (R56 (c)) -/

/-- The first `m` bytes of a read of a buffer that nothing is stored into meanwhile. -/
def State.bytesOf (s : State) (kind : ReadKind) (x : BufIdx) (m : Nat) : List Byte :=
  (List.range m).map fun j => s.byteAt x (kind.offset s.cfg j)

/-- How many bytes the read takes, by the `dlen` in the buffer. -/
def State.countOf (s : State) (kind : ReadKind) (x : BufIdx) : Nat :=
  kind.count s.cfg (s.dlenOf x)

/-- The state when `m` bytes of the read are made: the read in progress, or its answer. -/
def State.afterBytes (s : State) (kind : ReadKind) (x : BufIdx) (m : Nat) : State :=
  if m < s.countOf kind x then { s with conRun := some ⟨kind, x, s.bytesOf kind x m⟩ }
  else s.answer (finishRead s.cfg kind (s.bytesOf kind x m))

@[simp] theorem bytesOf_length (s : State) (kind : ReadKind) (x : BufIdx) (m : Nat) :
    (s.bytesOf kind x m).length = m := by
  simp [State.bytesOf]

theorem bytesOf_succ (s : State) (kind : ReadKind) (x : BufIdx) (m : Nat) :
    s.bytesOf kind x (m + 1) = s.bytesOf kind x m ++ [s.byteAt x (kind.offset s.cfg m)] := by
  simp [State.bytesOf, List.range_succ]

theorem readSoFar_bytesOf (s : State) (kind : ReadKind) (x : BufIdx) {m j : Nat} (h : j < m) :
    readSoFar (s.bytesOf kind x m) j = s.byteAt x (kind.offset s.cfg j) := by
  simp [readSoFar, State.bytesOf, h]

/-- After three bytes `CK.DATA` knows the `dlen` in the buffer (R206). -/
theorem dlenSoFar_bytesOf (s : State) (x : BufIdx) {m : Nat} (h : 3 ≤ m) :
    dlenSoFar (s.bytesOf .data x m) = s.dlenOf x := by
  rw [dlenSoFar, readSoFar_bytesOf _ _ _ (by omega), readSoFar_bytesOf _ _ _ (by omega)]
  rfl

/-- Whether a byte is left to read does not depend on whether `dlen` is known yet. -/
theorem lt_count_bytesOf_iff (s : State) (kind : ReadKind) (x : BufIdx) (m : Nat) :
    m < kind.count s.cfg (dlenSoFar (s.bytesOf kind x m)) ↔ m < s.countOf kind x := by
  unfold State.countOf
  cases kind with
  | rd16 | rd32 | len | hardlen | sum | fixlen => simp [ReadKind.count]
  | data =>
    by_cases hm : 3 ≤ m
    · rw [dlenSoFar_bytesOf s x hm]
    · have three_le (dlen : Half) : 3 ≤ ReadKind.count s.cfg .data dlen := by
        simp only [ReadKind.count, ReadKind.range]
        split <;> omega
      exact iff_of_true (by have := three_le (dlenSoFar (s.bytesOf .data x m)); omega)
        (by have := three_le (s.dlenOf x); omega)

theorem nextOffset_bytesOf (s : State) (kind : ReadKind) (x : BufIdx) (m : Nat) :
    nextOffset s.cfg kind (s.bytesOf kind x m) =
      if m < s.countOf kind x then some (kind.offset s.cfg m) else none := by
  simp only [nextOffset_eq, bytesOf_length, lt_count_bytesOf_iff]

/-- The `dlen` a `CK.DATA` has learnt stays inside the buffer, if the one in the buffer does. -/
theorem dlen_in_range_bytesOf {s : State} {kind : ReadKind} {x : BufIdx} {m : Nat}
    (hd : kind = .data → hdrLen + (s.dlenOf x).toNat ≤ s.cfg.cap) (hk : kind = .data) (hm : 3 ≤ m) :
    hdrLen + (dlenSoFar (s.bytesOf kind x m)).toNat ≤ s.cfg.cap := by
  obtain rfl := hk
  rw [dlenSoFar_bytesOf s x hm]
  exact hd rfl

section
variable {s : State} {kind : ReadKind} {x : BufIdx} (hv : s.cfg.valid = true) (hf : ConsumerFree s)
  (hr : kind.range.1 + kind.range.2 ≤ s.cfg.cap) (hd : kind = .data → hdrLen + (s.dlenOf x).toNat ≤ s.cfg.cap)

include hd in
theorem dataPast_bytesOf (m : Nat) : dataPast s.cfg ⟨kind, x, s.bytesOf kind x m⟩ = false := by
  rw [Bool.eq_false_iff, Ne, dataPast, Bool.and_eq_true, Bool.and_eq_true]
  rintro ⟨⟨hk, hm⟩, hc⟩
  have hm : m = 3 := by simpa using hm
  exact Nat.not_lt.2 (dlen_in_range_bytesOf hd (of_decide_eq_true hk) hm.ge) (of_decide_eq_true hc)

include hf hd in
/-- Going on with the read at a state that differs in the read in progress only. -/
theorem settleRead_bytesOf (q : Option ByteRun) (m : Nat) :
    settleRead ⟨kind, x, s.bytesOf kind x m⟩ { s with conRun := q } = .next (s.afterBytes kind x m) := by
  have hp := dataPast_bytesOf hd m
  have hn := nextOffset_bytesOf s kind x m
  unfold State.afterBytes
  by_cases hm : m < s.countOf kind x
  · rw [if_pos hm] at hn ⊢
    exact settleRead_more (s := { s with conRun := q }) hp (by rw [hn]; nofun)
  · rw [if_neg hm] at hn ⊢
    rw [settleRead_last (s := { s with conRun := q }) hp hn, ← hf.1]
    rfl

include hv hf hr hd in
theorem readNextByte_afterBytes {m : Nat} (hm : m < s.countOf kind x) :
    readNextByte (s.afterBytes kind x m) = .next (s.afterBytes kind x (m + 1)) := by
  have hn := (nextOffset_bytesOf s kind x m).trans (if_pos hm)
  have hc : kind.offset s.cfg m < s.cfg.cap :=
    nextOffset_lt_cap (r := ⟨kind, x, s.bytesOf kind x m⟩) hv hr
      (fun hk hl => dlen_in_range_bytesOf hd hk (by simpa using hl)) hn
  let u : State := { s with conRun := some ⟨kind, x, s.bytesOf kind x m⟩ }
  have hnext := settleRead_bytesOf hf hd u.conRun (m + 1)
  rw [bytesOf_succ] at hnext
  rw [State.afterBytes, if_pos hm]
  exact (readNextByte_in (s := u) rfl hf.2 hn hc).trans hnext

include hv hf hr hd in
/-- The bytes that are left, one after the other, end in the answer. -/
theorem readBytes_afterBytes {n m : Nat} (hn : m + n = s.countOf kind x) :
    readBytes n (s.afterBytes kind x m) = .next (s.afterBytes kind x (s.countOf kind x)) := by
  induction n generalizing m with
  | zero => rw [← hn]; rfl
  | succ n ih =>
    rw [readBytes, readNextByte_afterBytes hv hf hr hd (by omega)]
    exact ih (by omega)

include hv hf hr hd in
/-- A read made byte by byte ends with the value of all its bytes. -/
theorem beginSplit_readBytes {i : Instr} (hk : readKind i = some (bufNumber x, kind)) :
    ∃ u n, beginSplit i s = .next u ∧
      readBytes n u = .next (s.answer (finishRead s.cfg kind (s.bytesOf kind x (s.countOf kind x)))) := by
  refine ⟨s.afterBytes kind x 0, s.countOf kind x, ?_, ?_⟩
  · rw [beginSplit, hk]
    simp only [asConsumer_free hf, withRange_in x hr]
    exact settleRead_bytesOf hf hd s.conRun 0
  · rw [readBytes_afterBytes hv hf hr hd (Nat.zero_add _), State.afterBytes, if_neg (Nat.lt_irrefl _)]

end

/-- A read of one range whose value is that of its bytes behaves byte by byte as if atomic. -/
theorem split_agrees_of_ranged {s t : State} {i : Instr} {j : Nat} {kind : ReadKind} {f : BufIdx → Result}
    (hv : s.cfg.valid = true) (hk : readKind i = some (j, kind)) (hkind : kind ≠ .data)
    (hf : ∀ x, finishRead s.cfg kind (s.bytesOf kind x (s.countOf kind x)) = f x)
    (h : asConsumer s (withRange j kind.range.1 kind.range.2 s fun x => .next (s.answer (f x))) = .next t) :
    ∃ u n, beginSplit i s = .next u ∧ readBytes n u = .next t := by
  obtain ⟨hfree, h⟩ := asConsumer_next h
  obtain ⟨x, rfl, hr, h⟩ := withRange_next h
  cases h
  rw [← hf x]
  exact beginSplit_readBytes hv hfree hr (absurd · hkind) hk

/-- The bytes of `CK.DATA` after the seventh are the data bytes (R88). -/
theorem bytesOf_data_drop (s : State) (x : BufIdx) (n : Nat) :
    (s.bytesOf .data x (7 + n)).drop 7 = s.bytesAt x (hdrLen + s.cfg.dataHdr) n := by
  simp [State.bytesOf, State.bytesAt, List.range_add, ReadKind.offset]

/-- The value of `CK.DATA` from the bytes it reads is the atomic check's (R206): where `dlen` ends the check after the
header, neither looks at the rest. -/
theorem finishRead_data (s : State) (x : BufIdx) :
    finishRead s.cfg .data (s.bytesOf .data x (s.countOf .data x)) =
      .code ((dataVerdict s.cfg (s.byteAt x 1) (s.dlenOf x) (s.wordAt x 4) (s.dataOf x)).value s.cfg) := by
  by_cases hl : (s.dlenOf x).toNat < s.cfg.dataHdr
  · have hn : s.countOf .data x = 3 := if_neg fun h => Nat.not_le.2 hl h.2
    simp only [finishRead, hn, dlenSoFar_bytesOf s x le_rfl, dataVerdict, if_pos hl]
  · have hn : s.countOf .data x = 7 + ((s.dlenOf x).toNat - s.cfg.dataHdr) := if_pos ⟨rfl, Nat.not_lt.1 hl⟩
    have get {j : Nat} (hj : j < 7) : readSoFar (s.bytesOf .data x (s.countOf .data x)) j = s.byteAt x (1 + j) := by
      rw [readSoFar_bytesOf s _ x (by omega), ReadKind.offset, if_neg fun h => Nat.not_le.2 hj h.2]
      rfl
    simp only [finishRead, get (by decide : 0 < 7), get (by decide : 3 < 7), get (by decide : 4 < 7),
      get (by decide : 5 < 7), get (by decide : 6 < 7), dlenSoFar_bytesOf s x (by omega : 3 ≤ s.countOf .data x)]
    rw [hn, bytesOf_data_drop]
    rfl

theorem split_agrees_ckData {s t : State} {j : Nat} (hv : s.cfg.valid = true) (h : exec (.ckData j) s = .next t) :
    ∃ u n, beginSplit (.ckData j) s = .next u ∧ readBytes n u = .next t := by
  obtain ⟨hfree, h⟩ := asConsumer_next h
  obtain ⟨x, rfl, hr, h⟩ := withRange_next h
  split at h
  · cases h
  · next hd =>
    cases h
    rw [← finishRead_data]
    exact beginSplit_readBytes (kind := .data) hv hfree hr (fun _ => Nat.not_lt.1 hd) rfl

/-- Settles O60: `CK.DATA` by the value of its bytes, every other read by its one range. -/
theorem splitReadAgreesWithAtomicRead : Obligations.SplitReadAgreesWithAtomicRead := by
  rintro s t i hv (⟨j, k, rfl⟩ | ⟨j, k, rfl⟩ | ⟨j, rfl⟩ | ⟨j, rfl⟩ | ⟨j, k, n, rfl⟩ | ⟨j, e, rfl⟩ | ⟨j, rfl⟩) h
  · exact split_agrees_of_ranged hv rfl nofun (fun _ => rfl) h
  · exact split_agrees_of_ranged hv rfl nofun (fun _ => rfl) h
  · exact split_agrees_of_ranged hv rfl nofun (fun _ => rfl) h
  · exact split_agrees_of_ranged hv rfl nofun (fun _ => rfl) h
  · exact split_agrees_of_ranged hv rfl nofun (fun _ => rfl) h
  · exact split_agrees_of_ranged hv rfl nofun (fun _ => rfl) h
  · exact split_agrees_ckData hv h

/-! ### The scheduled move (R59) -/

theorem step_of_sched {s : State} {m : Move} {rest : List Move} (hv : s.cfg.valid = true)
    (hs : s.sched = m :: rest) : step s = runMove m { s with sched := rest } := by
  simp only [step, stepMachine, hv, hs, if_true]

theorem runMove_op {s : State} (hp : s.phase = .running) (i : Instr) :
    runMove (.op i) s = if i.insidePop then .refused .onlyInsidePop else exec i s := by
  simp only [runMove, hp]

theorem runMove_split {s : State} (hp : s.phase = .running) (i : Instr) : runMove (.split i) s = beginSplit i s := by
  simp only [runMove, hp]

theorem runMove_nextByte {s : State} (hp : s.phase = .running) : runMove .nextByte s = readNextByte s := by
  simp only [runMove, hp]

/-- Settles O41: the step is the scheduled move, one equation for each form of a move. -/
theorem scheduledOperationRuns : Obligations.ScheduledOperationRuns := by
  intro s i rest hv hp
  have hp : ({ s with sched := rest } : State).phase = .running := hp
  refine ⟨fun hs hi => ?_, fun hs hi => ?_, fun hs => ?_, fun hs => ?_⟩ <;> rw [step_of_sched hv hs]
  · rw [runMove_op hp, hi]
    rfl
  · rw [runMove_op hp, hi]
    rfl
  · exact runMove_split hp i
  · exact runMove_nextByte hp

end Sys2Proof.Machine
end

section
/-! The encodings (30_encoding.md): the classes of raw bytes, the two round trips between raw bytes and operations,
the sender's stuffing, and the reception of a frame. -/

namespace Sys2Proof.Machine

/-! ### Raw bytes and operations (R80, R81) -/

/-- Settles O2: each clause picks its branch of the chain of comparisons. -/
theorem byteClassIsFirstMatch : Obligations.ByteClassIsFirstMatch := by
  intro c b
  rw [classOf_eq]
  refine ⟨fun h1 => ?_, fun h1 h2 => ?_, fun h1 h2 h3 => ?_, fun h1 h2 h3 h4 => ?_, fun h1 h2 h3 h4 => ?_⟩
  · rw [if_pos h1]
  · rw [if_neg h1, if_pos h2]
  · rw [if_neg h1, if_neg h2, if_pos h3]
  · rw [if_neg h1, if_neg h2, if_neg h3, if_pos h4]
  · rw [if_neg h1, if_neg h2, if_neg h3, if_neg h4]

/-- The operation of a raw byte, as the chain of comparisons of R81. -/
theorem byteInstr_eq (c : Config) (b : Byte) :
    byteInstr c b = if b = c.endByte then .rxEnd else if b = c.escByte then .rxEsc
      else if b = c.escEndByte then .rxEscEnd else if b = c.escEscByte then .rxEscEsc else .rxData b := by
  rw [byteInstr, classOf_eq]
  split_ifs <;> rfl

/-- What the operation of a raw byte can be, whatever the configuration (R81). -/
theorem byteInstr_cases (c : Config) (b : Byte) :
    (b = c.endByte ∧ byteInstr c b = .rxEnd) ∨ (b = c.escByte ∧ byteInstr c b = .rxEsc) ∨
    (b = c.escEndByte ∧ byteInstr c b = .rxEscEnd) ∨ (b = c.escEscByte ∧ byteInstr c b = .rxEscEsc) ∨
    (classOf c b = .data ∧ byteInstr c b = .rxData b) := by
  rw [byteInstr_eq, classOf_data_iff]
  split_ifs with h1 h2 h3 h4
  · exact .inl ⟨h1, rfl⟩
  · exact .inr (.inl ⟨h2, rfl⟩)
  · exact .inr (.inr (.inl ⟨h3, rfl⟩))
  · exact .inr (.inr (.inr (.inl ⟨h4, rfl⟩)))
  · exact .inr (.inr (.inr (.inr ⟨⟨h1, h2, h3, h4⟩, rfl⟩)))

/-- The operand of `RX.DATA` is a byte of the data class (R81, R127). -/
theorem wf_rxData_iff (c : Config) (b : Byte) : (Instr.rxData b).wf c = true ↔ classOf c b = .data := by
  rw [classOf_data_iff]
  simp [Instr.wf, Instr.illFormed]

theorem byteInstr_wf (c : Config) (b : Byte) : (byteInstr c b).wf c = true := by
  rcases byteInstr_cases c b with ⟨-, h⟩ | ⟨-, h⟩ | ⟨-, h⟩ | ⟨-, h⟩ | ⟨hd, h⟩ <;> rw [h]
  · rfl
  · rfl
  · rfl
  · rfl
  · exact (wf_rxData_iff c b).2 hd

theorem encode_byteInstr (c : Config) (b : Byte) : encode c (byteInstr c b) = some [b] := by
  rcases byteInstr_cases c b with ⟨hb, h⟩ | ⟨hb, h⟩ | ⟨hb, h⟩ | ⟨hb, h⟩ | ⟨-, h⟩ <;> rw [h]
  · rw [hb]; rfl
  · rw [hb]; rfl
  · rw [hb]; rfl
  · rw [hb]; rfl
  · rfl

/-- What decodes is the operation of the first byte and the bytes after it (R80). -/
theorem decode_ok_iff (c : Config) (bs rest : List Byte) (i : Instr) :
    decode c bs = .ok (i, rest) ↔ ∃ b, bs = b :: rest ∧ i = byteInstr c b := by
  cases bs with
  | nil => simp [decode]
  | cons b bs =>
    simp only [decode, Except.ok.injEq, Prod.mk.injEq, List.cons.injEq]
    constructor
    · rintro ⟨rfl, rfl⟩
      exact ⟨b, ⟨rfl, rfl⟩, rfl⟩
    · rintro ⟨b', ⟨rfl, rfl⟩, rfl⟩
      exact ⟨rfl, rfl⟩

/-- Distinct codes keep the classes apart: the one raw byte of a well-formed operation is classed as that operation. -/
theorem byteInstr_of_encode {c : Config} (f : ConfigFacts c) {i : Instr} {w : List Byte} (hi : i.wf c = true)
    (h : encode c i = some w) : ∃ b, w = [b] ∧ byteInstr c b = i := by
  cases i with
  | rxEnd =>
    cases h
    exact ⟨_, rfl, by rw [byteInstr_eq, if_pos rfl]⟩
  | rxEsc =>
    cases h
    exact ⟨_, rfl, by rw [byteInstr_eq, if_neg f.end_ne_esc.symm, if_pos rfl]⟩
  | rxEscEnd =>
    cases h
    exact ⟨_, rfl, by rw [byteInstr_eq, if_neg f.end_ne_escEnd.symm, if_neg f.esc_ne_escEnd.symm, if_pos rfl]⟩
  | rxEscEsc =>
    cases h
    exact ⟨_, rfl, by rw [byteInstr_eq, if_neg f.end_ne_escEsc.symm, if_neg f.esc_ne_escEsc.symm,
      if_neg f.escEnd_ne_escEsc.symm, if_pos rfl]⟩
  | rxData b =>
    cases h
    exact ⟨b, rfl, by rw [byteInstr, (wf_rxData_iff c b).1 hi]⟩
  | accept | intEnter | intPop | intExit | envPush | envRaise | cmdPoll | cmdTake | bufRd8 | bufRd16 | bufRd32 | hdrOp
  | hdrCk | hdrLen | ckHardlen | ckSum | ckFixlen | ckData | irqEnable | irqMask | irqUnmask | reset => cases h

/-- Settles O3: the raw bytes are one byte, which is classed as the operation it came from. -/
theorem decodeOfEncodeIsTheInstruction : Obligations.DecodeOfEncodeIsTheInstruction := by
  intro c i w rest hv hi h
  obtain ⟨b, rfl, hb⟩ := byteInstr_of_encode (config_facts hv) hi h
  exact (decode_ok_iff ..).2 ⟨b, rfl, hb.symm⟩

/-- Settles O4: the operation decoded is the first byte's, which is well formed and has that byte. -/
theorem encodeOfDecodeIsTheByte : Obligations.EncodeOfDecodeIsTheByte := by
  intro c bs rest i h
  obtain ⟨b, rfl, rfl⟩ := (decode_ok_iff ..).1 h
  exact ⟨byteInstr_wf c b, [b], encode_byteInstr c b, rfl⟩

/-- Running the operation of a raw byte is accepting that byte (R141: `ACCEPT` has the byte classes as its cases). -/
theorem exec_byteInstr {s : State} (f : ConfigFacts s.cfg) (b : Byte) :
    exec (byteInstr s.cfg b) s = .next (acceptByte b s) := by
  unfold acceptByte
  rcases byteInstr_cases s.cfg b with ⟨rfl, h⟩ | ⟨rfl, h⟩ | ⟨rfl, h⟩ | ⟨rfl, h⟩ | ⟨hd, h⟩ <;> rw [h]
  · rw [slipStep_end]; rfl
  · rw [slipStep_esc f]; rfl
  · rw [slipStep_escEnd f]; rfl
  · rw [slipStep_escEsc f]; rfl
  · rw [slipStep_data hd]; exact if_pos hd

/-- A pop runs the operation of the head of `RXQ` (R162). -/
theorem exec_intPop_head {s : State} {b : Byte} {q : List Byte} (f : ConfigFacts s.cfg) (hm : s.intMode = .draining)
    (hq : s.rxq = b :: q) : exec .intPop s = exec (byteInstr s.cfg b) { s with rxq := q } := by
  have hpop : exec .intPop s = .next (acceptByte b { s with rxq := q }) := by simp [exec, execIntPop, hm, hq]
  exact hpop.trans (exec_byteInstr (s := { s with rxq := q }) f b).symm

/-- Settles O42: both steps are the pop, which runs the operation of the head. -/
theorem popRunsTheDecodedByte : Obligations.PopRunsTheDecodedByte := by
  rintro s q rest i hv hp hm - hdec rfl
  obtain ⟨b, hq, rfl⟩ := (decode_ok_iff ..).1 hdec
  have f := config_facts hv
  refine ⟨by rw [hq]; rfl, byteInstr_wf .., fun hs => ?_, fun m hs => ?_⟩ <;> rw [hq, List.tail_cons]
  · rw [step_of_feedMove_op (i := .intPop) ⟨hv, hp, hs⟩ (by simp [feedMove, hp, hm, hq]) rfl]
    exact exec_intPop_head f hm hq
  · rw [(scheduledOperationRuns s .intPop m hv hp).1 hs rfl]
    exact exec_intPop_head (s := { s with sched := m }) f hm hq

/-! ### The sender's stuffing (R86) -/

@[simp] theorem stuffByte_end (c : Config) : stuffByte c c.endByte = [c.escByte, c.escEndByte] := if_pos rfl

theorem stuffByte_esc {c : Config} (f : ConfigFacts c) : stuffByte c c.escByte = [c.escByte, c.escEscByte] := by
  rw [stuffByte, if_neg f.end_ne_esc.symm, if_pos rfl]

theorem stuffByte_other {c : Config} {b : Byte} (h1 : b ≠ c.endByte) (h2 : b ≠ c.escByte) : stuffByte c b = [b] := by
  rw [stuffByte, if_neg h1, if_neg h2]

/-- A payload byte is sent as itself or as an escape and one of the two codes. -/
theorem stuffByte_cases (c : Config) (b : Byte) :
    (b ≠ c.endByte ∧ b ≠ c.escByte ∧ stuffByte c b = [b]) ∨
    ∃ code, (code = c.escEndByte ∨ code = c.escEscByte) ∧ stuffByte c b = [c.escByte, code] := by
  unfold stuffByte
  split
  · exact .inr ⟨_, .inl rfl, rfl⟩
  · next h1 =>
    split
    · exact .inr ⟨_, .inr rfl, rfl⟩
    · next h2 => exact .inl ⟨h1, h2, rfl⟩

theorem stuff_singleton (c : Config) (b : Byte) : stuff c [b] = stuffByte c b := List.append_nil _

theorem stuff_append (c : Config) (p q : List Byte) : stuff c (p ++ q) = stuff c p ++ stuff c q := by
  induction p with
  | nil => rfl
  | cons b p ih => simp only [List.cons_append, stuff, ih, List.append_assoc]

theorem end_notMem_stuffByte {c : Config} (f : ConfigFacts c) (b : Byte) : c.endByte ∉ stuffByte c b := by
  obtain ⟨h1, -, h⟩ | ⟨code, hcode, h⟩ := stuffByte_cases c b <;> rw [h]
  · simpa using h1.symm
  · have hne : c.endByte ≠ code := by
      rcases hcode with rfl | rfl
      · exact f.end_ne_escEnd
      · exact f.end_ne_escEsc
    simp [f.end_ne_esc, hne]

theorem end_notMem_stuff {c : Config} (f : ConfigFacts c) (p : List Byte) : c.endByte ∉ stuff c p := by
  induction p with
  | nil => exact List.not_mem_nil
  | cons b p ih => exact fun h => (List.mem_append.1 h).elim (end_notMem_stuffByte f b) ih

/-- An escape in a stuffed payload opens one of the two pairs. -/
theorem code_after_escape {c : Config} (f : ConfigFacts c) {p pre post : List Byte}
    (h : stuff c p = pre ++ c.escByte :: post) :
    ∃ code rest, post = code :: rest ∧ (code = c.escEndByte ∨ code = c.escEscByte) := by
  induction p generalizing pre with
  | nil => simp [stuff] at h
  | cons b p ih =>
    obtain ⟨-, hb, hs⟩ | ⟨code, hcode, hs⟩ := stuffByte_cases c b <;>
      simp only [stuff, hs, List.cons_append, List.nil_append, List.cons_eq_append_iff] at h
    · obtain ⟨-, h⟩ | ⟨pre, -, h⟩ := h
      · exact absurd (List.cons.inj h).1.symm hb
      · exact ih h
    · obtain ⟨-, h⟩ | ⟨pre, -, ⟨-, h⟩ | ⟨pre', -, h⟩⟩ := h
      · exact ⟨code, stuff c p, (List.cons.inj h).2, hcode⟩
      · have hne : c.escByte ≠ code := by
          rcases hcode with rfl | rfl
          · exact f.esc_ne_escEnd
          · exact f.esc_ne_escEsc
        exact absurd (List.cons.inj h).1 hne
      · exact ih h

/-- Settles O5: the substitutions are the branches of `stuffByte`, the rest is by induction on the payload. -/
theorem stuffedPayloadHasNoDelimiter : Obligations.StuffedPayloadHasNoDelimiter := by
  intro c hv
  have f := config_facts hv
  refine ⟨?_, ?_, fun b h1 h2 => ?_, stuff_append c, end_notMem_stuff f, fun p pre post h => code_after_escape f h⟩
  · rw [stuff_singleton, stuffByte_end]
  · rw [stuff_singleton, stuffByte_esc f]
  · rw [stuff_singleton, stuffByte_other h1 h2]

/-! ### The decoder over a stuffed payload (R86, R120) -/

theorem slipRun_append (c : Config) (d : DState) (p q : List Byte) :
    slipRun c d (p ++ q) =
      ((slipRun c (slipRun c d p).1 q).1, (slipRun c d p).2 ++ (slipRun c (slipRun c d p).1 q).2) := by
  induction p generalizing d with
  | nil => rfl
  | cons b p ih => simp only [List.cons_append, slipRun, ih, List.append_assoc]

/-- Inside a frame the decoder turns the raw bytes of a payload byte back into it. -/
theorem slipRun_stuffByte {c : Config} (f : ConfigFacts c) (b : Byte) :
    slipRun c .inFrame (stuffByte c b) = (.inFrame, [b]) := by
  by_cases h1 : b = c.endByte
  · subst h1
    simp [slipRun, slipStep_esc f, slipStep_escEnd f, caseEsc, caseEscEnd, outcomeBytes]
  by_cases h2 : b = c.escByte
  · subst h2
    simp [stuffByte_esc f, slipRun, slipStep_esc f, slipStep_escEsc f, caseEsc, caseEscEsc, outcomeBytes]
  · simp [stuffByte_other h1 h2, slipRun, slipStep, h1, h2, outcomeBytes]

/-- The decoder undoes the stuffing. -/
theorem slipRun_stuff {c : Config} (f : ConfigFacts c) (p : List Byte) :
    slipRun c .inFrame (stuff c p) = (.inFrame, p) := by
  induction p with
  | nil => rfl
  | cons b p ih => rw [stuff, slipRun_append, slipRun_stuffByte f, ih]; rfl

/-! ### Collecting a payload (R141, R143) -/

/-- From `s` to `t` the bytes `p` have been stored behind the cursor of the active buffer, and nothing published. -/
structure Collected (s t : State) (p : List Byte) : Prop where
  cmd : t.cmd = s.cmd
  active : t.active = s.active
  cursor : t.cursor = s.cursor + p.length
  stored : ∀ k, k < p.length → p[k]? = some (t.byteAt s.active (s.cursor + k))
  kept : ∀ x k, x ≠ s.active ∨ k < s.cursor ∨ s.cursor + p.length ≤ k → t.byteAt x k = s.byteAt x k

theorem Collected.nil (s : State) (d : DState) : Collected s { s with dstate := d } [] :=
  ⟨rfl, rfl, rfl, nofun, fun x k _ => byteAt_dstate s d x k⟩

/-- Collecting does not depend on the decoder state it starts in. -/
theorem Collected.of_dstate {s t : State} {d : DState} {p : List Byte} (h : Collected { s with dstate := d } t p) :
    Collected s t p :=
  ⟨h.cmd, h.active, h.cursor, h.stored, fun x k hk => (h.kept x k hk).trans (byteAt_dstate s d x k)⟩

/-- A byte stored below the capacity, and then more bytes collected. -/
theorem Collected.cons {s u t : State} {v : Byte} {d : DState} {p : List Byte} (hv : Stored s u v d)
    (hc : s.cursor + 1 ≠ s.cfg.cap) (h : Collected u t p) : Collected s t (v :: p) := by
  obtain ⟨-, hat, hkept, -, hfree, -⟩ := hv
  obtain ⟨hcmd, hact, hcur⟩ := hfree hc
  refine ⟨h.cmd.trans hcmd, h.active.trans hact, ?_, fun k hk => ?_, fun x k hk => ?_⟩
  · rw [h.cursor, hcur, List.length_cons]
    omega
  · cases k with
    | zero => rw [Nat.add_zero, h.kept _ _ (.inr (.inl (by omega))), hat]; rfl
    | succ k =>
      have := h.stored k (Nat.lt_of_succ_lt_succ hk)
      rw [hact, hcur, Nat.add_assoc, Nat.add_comm 1] at this
      exact this
  · rw [List.length_cons] at hk
    rw [h.kept x k (by rw [hact, hcur]; exact hk.imp_right fun h => by omega),
      hkept x k (hk.imp_right fun h => by omega)]

/-- A stream without a delimiter, whose decoded bytes leave the buffer below its capacity, only collects them. -/
theorem acceptAll_collects {bs : List Byte} {s : State} (hb : s.cfg.endByte ∉ bs)
    (hc : s.cursor + (slipRun s.cfg s.dstate bs).2.length < s.cfg.cap) :
    Collected s (acceptAll bs s) (slipRun s.cfg s.dstate bs).2 := by
  induction bs generalizing s with
  | nil => exact .nil s s.dstate
  | cons b bs ih =>
    obtain ⟨hne, hb⟩ := not_or.1 (List.mem_cons.not.1 hb)
    rw [acceptAll_cons]
    simp only [slipRun] at hc ⊢
    obtain ⟨d, hstep, -, ht⟩ | ⟨v, hstep, hst⟩ | ⟨-, -, hend, -⟩ := acceptByte_cases b s
    · rw [hstep] at hc ⊢
      rw [ht]
      exact (ih (s := { s with dstate := d }) hb hc).of_dstate
    · rw [hstep] at hc ⊢
      simp only [outcomeBytes, List.singleton_append, List.length_cons] at hc ⊢
      have hfull : s.cursor + 1 ≠ s.cfg.cap := by omega
      have ⟨hd, _, _, _, hfree, _⟩ := hst
      obtain ⟨-, -, hcur⟩ := hfree hfull
      have hrest := ih (s := acceptByte b s) (by rwa [acceptByte_cfg])
      rw [acceptByte_cfg, hd, hcur] at hrest
      exact .cons hst hfull (hrest (by omega))
    · exact absurd hend.symm hne

/-! ### Receiving a frame (R83, R86, R144) -/

/-- Outside a frame a delimiter opens one (R123). -/
theorem acceptByte_end_opens {s : State} (h : s.dstate = .noFrame) :
    acceptByte s.cfg.endByte s = { s with dstate := .inFrame } := by
  rw [acceptByte, slipStep_end, h]
  rfl

/-- Inside a frame a delimiter publishes it (R123, R144). -/
theorem acceptByte_end_publishes {s : State} (h : s.dstate ≠ .noFrame) :
    acceptByte s.cfg.endByte s = publishedState s .noFrame := by
  rw [acceptByte, slipStep_end]
  cases hd : s.dstate with
  | noFrame => exact absurd hd h
  | inFrame => rfl
  | escaping => rfl

@[simp] theorem acceptAll_dstate (bs : List Byte) (s : State) :
    (acceptAll bs s).dstate = (slipRun s.cfg s.dstate bs).1 := by
  induction bs generalizing s with
  | nil => rfl
  | cons b bs ih => rw [acceptAll_cons, ih, acceptByte_cfg, acceptByte_dstate]; rfl

section Frame

variable {s : State} {p : List Byte} (hv : s.cfg.valid = true) (hd : s.dstate = .noFrame) (hc : s.cursor = 0)
  (hp : p.length < s.cfg.cap)
include hv hd hc hp

/-- Every prefix of an opened frame collects what the decoder makes of it, and that is no longer than the payload. -/
theorem acceptAll_framePrefix_collects {pre post : List Byte} (h : stuff s.cfg p = pre ++ post) :
    Collected s (acceptAll (s.cfg.endByte :: pre) s) (slipRun s.cfg .inFrame pre).2 := by
  have f := config_facts hv
  have hend : s.cfg.endByte ∉ pre := fun hm => end_notMem_stuff f p (h ▸ List.mem_append_left post hm)
  have hrun : (slipRun s.cfg .inFrame (pre ++ post)).2 = p := by rw [← h, slipRun_stuff f]
  rw [slipRun_append] at hrun
  have hlen : (slipRun s.cfg .inFrame pre).2.length ≤ p.length := by
    rw [← hrun, List.length_append]
    exact Nat.le_add_right ..
  rw [acceptAll_cons, acceptByte_end_opens hd]
  exact (acceptAll_collects (s := { s with dstate := .inFrame }) hend (by simp only [hc]; omega)).of_dstate

/-- The frame without its closing delimiter collects the payload. -/
theorem acceptAll_openFrame_collects : Collected s (acceptAll (s.cfg.endByte :: stuff s.cfg p) s) p := by
  have h := acceptAll_framePrefix_collects hv hd hc hp (List.append_nil _).symm
  rwa [slipRun_stuff (config_facts hv)] at h

end Frame

theorem acceptAll_openFrame_dstate {s : State} (f : ConfigFacts s.cfg) (hd : s.dstate = .noFrame) (p : List Byte) :
    (acceptAll (s.cfg.endByte :: stuff s.cfg p) s).dstate = .inFrame := by
  rw [acceptAll_cons, acceptByte_end_opens hd, acceptAll_dstate, slipRun_stuff f]

/-- The closing delimiter publishes what the frame has collected. -/
theorem acceptAll_frame {s : State} (f : ConfigFacts s.cfg) (hd : s.dstate = .noFrame) (p : List Byte) :
    acceptAll (frame s.cfg p) s = publishedState (acceptAll (s.cfg.endByte :: stuff s.cfg p) s) .noFrame := by
  have hin := acceptAll_openFrame_dstate f hd p
  rw [frame, acceptAll_append, acceptAll_cons _ [], acceptAll_nil]
  rw [← acceptByte_end_publishes (by rw [hin]; nofun), acceptAll_cfg]

/-- Settles O51: the open frame collects the payload, every prefix of it a part of the payload, and the closing
delimiter publishes. -/
theorem framedPayloadRoundTrip : Obligations.FramedPayloadRoundTrip := by
  intro s p hv hd hc hp m t
  have f := config_facts hv
  have hm : Collected s m p := acceptAll_openFrame_collects hv hd hc hp
  have ht : t = publishedState m .noFrame := acceptAll_frame f hd p
  have hcur : m.cursor = p.length := by rw [hm.cursor, hc, Nat.zero_add]
  have hbyte (x : BufIdx) (k : Nat) : t.byteAt x k = m.byteAt x k := by rw [ht, byteAt_publishedState]
  refine ⟨fun pre post h => ?_, hcur, acceptAll_openFrame_dstate f hd p, ?_, ?_, ?_, ?_, fun k hk => ?_,
    fun k hk => ?_, fun k => ?_, acceptAll_outside ..⟩
  · obtain ⟨rfl, -⟩ | ⟨pre, rfl, hpre⟩ := List.cons_eq_append_iff.1 h
    · exact ⟨rfl, rfl⟩
    · have hpre := acceptAll_framePrefix_collects hv hd hc hp hpre
      exact ⟨hpre.cmd, hpre.active⟩
  · rw [ht, ← hm.active]; rfl
  · rw [ht, ← hm.active]; rfl
  · rw [ht]; rfl
  · rw [ht]; rfl
  · rw [hm.stored k hk, hbyte, hc, Nat.zero_add]
  · rw [hbyte, hm.kept _ _ (.inr (.inr (by omega)))]
  · rw [hbyte, hm.kept _ _ (.inl (otherBuf_ne _))]

/-! ### A data-carrying request (R88, R94) -/

/-- The declared length of a request, read back (R10, R94). -/
theorem le16_ofNat {n : Nat} (h : n < 65536) : (le16 (BitVec.ofNat 8 n) (BitVec.ofNat 8 (n / 256))).toNat = n := by
  simp only [le16_toNat, BitVec.toNat_ofNat]
  omega

/-- The inner length word of a request, read back (R10, R94). -/
theorem le32_ofNat {n : Nat} (h : n < 4294967296) :
    (le32 (BitVec.ofNat 8 n) (BitVec.ofNat 8 (n / 256)) (BitVec.ofNat 8 (n / 65536))
      (BitVec.ofNat 8 (n / 16777216))).toNat = n := by
  simp only [le32_toNat, BitVec.toNat_ofNat]
  omega

/-- The bytes `p` stand at the start of a buffer. -/
def BufferHolds (s : State) (i : BufIdx) (p : List Byte) : Prop :=
  ∀ k, k < p.length → p[k]? = some (s.byteAt i k)

theorem BufferHolds.byteAt {s : State} {i : BufIdx} {p : List Byte} (h : BufferHolds s i p) {k : Nat} {v : Byte}
    (hk : p[k]? = some v) : s.byteAt i k = v := by
  obtain ⟨hlt, -⟩ := List.getElem?_eq_some_iff.1 hk
  exact Option.some.inj ((h k hlt).symm.trans hk)

/-- What stands after the first `k` bytes is read as a run of bytes (R204). -/
theorem BufferHolds.bytesAt {s : State} {i : BufIdx} {l x : List Byte} (h : BufferHolds s i (l ++ x)) :
    s.bytesAt i l.length x.length = x := by
  refine List.ext_getElem? fun j => ?_
  by_cases hj : j < x.length
  · rw [bytesAt_getElem? s i _ hj, ← h _ (by rw [List.length_append]; omega),
      List.getElem?_append_right (Nat.le_add_right ..), Nat.add_sub_cancel_left]
  · rw [List.getElem?_eq_none (by rw [bytesAt_length]; omega), List.getElem?_eq_none (by omega)]

/-- The three checks of `CK.DATA` (R206), all passed. -/
theorem dataVerdict_ok {c : Config} {ck : Byte} {dlen : Half} {ilen : Word} {data : List Byte}
    (hlen : dlen.toNat = c.dataHdr + ilen.toNat) (hck : xorsum c data = ck) :
    dataVerdict c ck dlen ilen data = .ok := by
  rw [dataVerdict, if_neg (by omega), if_neg (not_not.2 hck), if_neg (by omega)]

theorem exec_ckHardlen_pass {s : State} {x : BufIdx} (f : ConfigFacts s.cfg) (hf : ConsumerFree s)
    (h : (s.dlenOf x).toNat ≤ s.cfg.lenLimit) :
    exec (.ckHardlen (bufNumber x)) s = .next { s with conResult := some (.pair s.cfg.eOk 0) } := by
  have hcap : 2 + 2 ≤ s.cfg.cap := (Nat.le_add_right 4 _).trans f.cap_holds_limit
  rw [exec, execCkHardlen, asConsumer_free hf, withRange_in x hcap, hardlenVerdict, if_neg (Nat.not_lt.2 h)]
  rfl

theorem exec_ckData_in {s : State} {x : BufIdx} (f : ConfigFacts s.cfg) (hf : ConsumerFree s)
    (h : (s.dlenOf x).toNat ≤ s.cfg.lenLimit) :
    exec (.ckData (bufNumber x)) s = .next (s.answer (.code
      ((dataVerdict s.cfg (s.byteAt x 1) (s.dlenOf x) (s.wordAt x 4) (s.dataOf x)).value s.cfg))) := by
  have hcap := f.cap_holds_limit
  have hdlen : ¬ s.cfg.cap < hdrLen + (s.dlenOf x).toNat := by
    rw [hdrLen]
    omega
  rw [exec, execCkData, asConsumer_free hf, withRange_in x (by omega), if_neg hdlen]

section DataRequest

variable {s : State} {i : BufIdx} {op : Byte} {h x : List Byte} (f : ConfigFacts s.cfg)
  (hh : h.length + 4 = s.cfg.dataHdr) (hx : s.cfg.dataHdr + x.length ≤ s.cfg.lenLimit)
  (hb : BufferHolds s i (dataRequest s.cfg op h x))
include f hh hx hb

/-- A stored data-carrying request declares the length of its inner header and data (R87, R88). -/
theorem dlenOf_dataRequest : (s.dlenOf i).toNat = s.cfg.dataHdr + x.length := by
  have hlen : (le32Bytes x.length ++ h ++ x).length = s.cfg.dataHdr + x.length := by
    simp only [le32Bytes, List.length_append, List.length_cons, List.length_nil]
    omega
  have h2 : s.byteAt i 2 = BitVec.ofNat 8 (s.cfg.dataHdr + x.length) := hb.byteAt (by rw [← hlen]; rfl)
  have h3 : s.byteAt i 3 = BitVec.ofNat 8 ((s.cfg.dataHdr + x.length) / 256) := hb.byteAt (by rw [← hlen]; rfl)
  have hfit := f.limit_fits
  rw [State.dlenOf, State.halfAt, h2, h3, le16_ofNat (by omega)]

omit hh in
/-- Its inner length word is the number of its data bytes (R88). -/
theorem wordAt_dataRequest : (s.wordAt i 4).toNat = x.length := by
  have h4 : s.byteAt i 4 = BitVec.ofNat 8 x.length := hb.byteAt rfl
  have h5 : s.byteAt i (4 + 1) = BitVec.ofNat 8 (x.length / 256) := hb.byteAt rfl
  have h6 : s.byteAt i (4 + 2) = BitVec.ofNat 8 (x.length / 65536) := hb.byteAt rfl
  have h7 : s.byteAt i (4 + 3) = BitVec.ofNat 8 (x.length / 16777216) := hb.byteAt rfl
  have hfit := f.limit_fits
  rw [State.wordAt, h4, h5, h6, h7, le32_ofNat (by omega)]

/-- Its data bytes are read back as its data (R88, R204). -/
theorem dataOf_dataRequest : s.dataOf i = x := by
  rw [dataRequest, request, ← List.append_assoc] at hb
  have hpre : (op :: xorsum s.cfg x :: le16Bytes (le32Bytes x.length ++ h ++ x).length
      ++ (le32Bytes x.length ++ h)).length = hdrLen + s.cfg.dataHdr := by
    simp only [le16Bytes, le32Bytes, hdrLen, List.length_append, List.length_cons, List.length_nil]
    omega
  rw [State.dataOf, dlenOf_dataRequest f hh hx hb, Nat.add_sub_cancel_left, ← hpre]
  exact hb.bytesAt

theorem dataVerdict_dataRequest :
    dataVerdict s.cfg (s.byteAt i 1) (s.dlenOf i) (s.wordAt i 4) (s.dataOf i) = .ok := by
  refine dataVerdict_ok ?_ ?_
  · rw [dlenOf_dataRequest f hh hx hb, wordAt_dataRequest f hx hb]
  · rw [dataOf_dataRequest f hh hx hb]
    exact (hb.byteAt rfl).symm

end DataRequest

theorem dataRequest_length (c : Config) (op : Byte) (h x : List Byte) :
    (dataRequest c op h x).length = 8 + h.length + x.length := by
  simp only [dataRequest, request, le16Bytes, le32Bytes, List.length_append, List.length_cons, List.length_nil]
  omega

theorem ConsumerFree.of_outside {s t : State} (h : OutsideReceiveSame s t) (hf : ConsumerFree s) : ConsumerFree t := by
  obtain ⟨-, hm, -, -, -, hc, -, -, -, -, hr, -⟩ := h
  obtain ⟨hrun, hheld⟩ := hf
  exact ⟨hr.trans hrun, by rw [← hheld, State.heldOff, State.heldOff, hm, hc]⟩

/-- Settles O58: the frame stores the request (O51), whose declared length is within the limit and whose lengths and
checksum agree. -/
theorem wellFormedDataRequestPassesItsChecks : Obligations.WellFormedDataRequestPassesItsChecks := by
  intro s op h x hv hf hd hc hh hx hcap t
  have f := config_facts hv
  have hlen : (dataRequest s.cfg op h x).length < s.cfg.cap := by
    rw [dataRequest_length]
    omega
  obtain ⟨-, -, -, hcmd, -, -, -, hb, -, -, hout⟩ := framedPayloadRoundTrip s _ hv hd hc hlen
  have hcfg : t.cfg = s.cfg := acceptAll_cfg ..
  have hft : ConsumerFree t := hf.of_outside hout
  rw [← hcfg] at f hh hx ⊢
  have hb : BufferHolds t s.active (dataRequest t.cfg op h x) := by rw [hcfg]; exact hb
  have hdlen : (t.dlenOf s.active).toNat ≤ t.cfg.lenLimit := by rwa [dlenOf_dataRequest f hh hx hb]
  refine ⟨hcmd, exec_ckHardlen_pass f hft hdlen, ?_⟩
  rw [exec_ckData_in f hft hdlen, dataVerdict_dataRequest f hh hx hb]
  rfl

end Sys2Proof.Machine
end

section
/-! Family 40_checksum.md: the checksum function is a sum of bytes under exclusive-or, seeded with `CK_INIT` (R110). Its
laws (R111) and what it detects (R112) follow from where one byte of the sequence enters that sum (`xorsum_middle`). -/

namespace Sys2Proof.Machine

/-! ### Rules of `xorsum` -/

@[simp] theorem xorsum_nil (c : Config) : xorsum c [] = c.ckInit := rfl

theorem xorsum_append_singleton (c : Config) (s : List Byte) (b : Byte) : xorsum c (s ++ [b]) = xorsum c s ^^^ b := by
  simp [xorsum]

theorem xorsum_perm (c : Config) {s t : List Byte} (h : s.Perm t) : xorsum c s = xorsum c t :=
  h.foldl_eq c.ckInit

/-- One byte of a sequence, wherever it stands, is exclusive-ored into the sum of the others. -/
theorem xorsum_middle (c : Config) (p : List Byte) (b : Byte) (q : List Byte) :
    xorsum c (p ++ b :: q) = xorsum c (p ++ q) ^^^ b := by
  have hlast : (p ++ b :: q).Perm (p ++ q ++ [b]) :=
    List.perm_middle.trans (List.perm_append_singleton b (p ++ q)).symm
  rw [xorsum_perm c hlast, xorsum_append_singleton]

theorem xorsum_cons (c : Config) (b : Byte) (s : List Byte) : xorsum c (b :: s) = xorsum c s ^^^ b :=
  xorsum_middle c [] b s

/-- R111 (b): each of two sums holds the seed once, so one seed is taken out again. -/
theorem xorsum_append (c : Config) (s t : List Byte) :
    xorsum c (s ++ t) = xorsum c s ^^^ xorsum c t ^^^ c.ckInit := by
  induction s with
  | nil =>
    rw [List.nil_append, xorsum_nil, BitVec.xor_comm c.ckInit, BitVec.xor_assoc, BitVec.xor_self, BitVec.xor_zero]
  | cons b s ih =>
    rw [List.cons_append, xorsum_cons, xorsum_cons, ih]
    ac_rfl

/-- Two bytes of a sequence, wherever they stand, enter the sum by their exclusive-or alone. -/
theorem xorsum_two (c : Config) (p q r : List Byte) (a b : Byte) :
    xorsum c (p ++ a :: q ++ b :: r) = xorsum c (p ++ q ++ r) ^^^ (a ^^^ b) := by
  rw [xorsum_middle, List.append_assoc, List.cons_append, xorsum_middle, BitVec.xor_assoc, List.append_assoc]

/-- R111: exclusive-or acts on each bit position alone, and there it counts modulo 2. -/
theorem xorsum_getLsbD (c : Config) (s : List Byte) (j : Nat) :
    (xorsum c s).getLsbD j =
      (c.ckInit.getLsbD j != decide ((s.filter fun b => b.getLsbD j).length % 2 = 1)) := by
  induction s with
  | nil => simp
  | cons b s ih =>
    rw [xorsum_cons, BitVec.getLsbD_xor, ih, List.filter_cons]
    cases b.getLsbD j with
    | false => simp
    | true =>
      simp only [if_true, List.length_cons, Nat.succ_mod_two_eq_one_iff, ← Nat.mod_two_ne_one, decide_not]
      simp

/-! ### The statements of the family -/

/-- Settles O28: the fold at the empty sequence and at a last byte; the seed cancels itself. -/
theorem xorsumFoldsTheBytes : Obligations.XorsumFoldsTheBytes := by
  intro c s b
  have hone (b : Byte) : xorsum c [b] = c.ckInit ^^^ b := xorsum_append_singleton c [] b
  exact ⟨xorsum_nil c, xorsum_append_singleton c s b, hone b, (hone c.ckInit).trans BitVec.xor_self⟩

/-- Settles O29: (c) and (d) append bytes that sum to zero. -/
theorem xorsumLaws : Obligations.XorsumLaws := by
  intro c
  refine ⟨xorsum_getLsbD c, fun _ _ => xorsum_perm c, xorsum_append c, fun s => ?zero, fun s b => ?twice⟩
  case zero => exact (xorsum_append_singleton c s 0x00).trans BitVec.xor_zero
  case twice =>
    have h := xorsum_two c s [] [] b b
    rwa [BitVec.xor_self, BitVec.xor_zero, List.append_nil, List.append_nil, List.append_assoc] at h

/-- Settles O30: a change of one byte changes the sum by a cancellable term; the changes of two bytes leave the
exclusive-or of the two as it was. -/
theorem xorsumDetectsExactlyOneByteChanges : Obligations.XorsumDetectsExactlyOneByteChanges := by
  intro c p q r a b m
  refine ⟨fun hab => ?change, ?swap, ?mask, ?cancel⟩
  case change => rwa [xorsum_middle, xorsum_middle, Ne, BitVec.xor_right_inj]
  case swap => rw [xorsum_two, xorsum_two, BitVec.xor_comm a b]
  case mask =>
    have hm : (a ^^^ m) ^^^ (b ^^^ m) = a ^^^ b := by
      calc (a ^^^ m) ^^^ (b ^^^ m) = (a ^^^ b) ^^^ (m ^^^ m) := by ac_rfl
        _ = a ^^^ b := by rw [BitVec.xor_self, BitVec.xor_zero]
    rw [xorsum_two, xorsum_two, hm]
  case cancel => rw [xorsum_two, BitVec.xor_self, BitVec.xor_zero]

end Sys2Proof.Machine
end

section
/-! The decoder (41_slip_decoder.md): the transition table and its properties (R122, R128), and its five byte classes
as operations of the receive path (R123 to R127). -/

namespace Sys2Proof.Machine

/-! ### The transition table (R122) -/

/-- Settles O6: the first four columns are the cases of the four codes, the last one is `caseData`. -/
theorem slipStepFollowsTheTable : Obligations.SlipStepFollowsTheTable := by
  intro c hv
  have f := config_facts hv
  exact ⟨slipStep_end c .noFrame, slipStep_esc f .noFrame, slipStep_escEnd f .noFrame, slipStep_escEsc f .noFrame,
    slipStep_end c .inFrame, slipStep_esc f .inFrame, slipStep_escEnd f .inFrame, slipStep_escEsc f .inFrame,
    slipStep_end c .escaping, slipStep_esc f .escaping, slipStep_escEnd f .escaping, slipStep_escEsc f .escaping,
    fun _ hb => ⟨slipStep_data hb .noFrame, slipStep_data hb .inFrame, slipStep_data hb .escaping⟩⟩

/-! ### Properties of the table (R128) -/

theorem outcomeBytes_length_le (o : DecOut) : (outcomeBytes o).length ≤ 1 := by
  cases o with
  | none => exact Nat.zero_le 1
  | byte => exact Nat.le_refl 1
  | done => exact Nat.zero_le 1

theorem caseEnd_of_inside {d : DState} (h : d ≠ .noFrame) : caseEnd d = (.noFrame, .done) := by
  cases d with
  | noFrame => exact absurd rfl h
  | inFrame => rfl
  | escaping => rfl

/-- R128 (b). -/
theorem slipStep_done_iff (c : Config) (d : DState) (b : Byte) :
    (slipStep c d b).2 = .done ↔ b = c.endByte ∧ d ≠ .noFrame := by
  constructor
  · intro h
    obtain ⟨_, hs, -⟩ | ⟨_, hs, -⟩ | ⟨-, hd, hb⟩ := slipStep_cases c d b
    · rw [hs] at h; cases h
    · rw [hs] at h; cases h
    · exact ⟨hb, hd⟩
  · rintro ⟨rfl, hd⟩
    rw [slipStep_end, caseEnd_of_inside hd]

/-- R128 (c). -/
theorem slipStep_end_dstate (c : Config) (d : DState) :
    (slipStep c d c.endByte).1 = if d = .noFrame then .inFrame else .noFrame := by
  rw [slipStep_end]
  split
  · next h => rw [h]; rfl
  · next h => rw [caseEnd_of_inside h]

/-- R128 (d), the way out of `NO_FRAME`. -/
theorem slipStep_leaves_noFrame_iff (c : Config) (b : Byte) :
    (slipStep c .noFrame b).1 ≠ .noFrame ↔ b = c.endByte := by
  constructor
  · intro h
    by_contra hb
    exact h (by rw [slipStep_noFrame hb])
  · rintro rfl
    rw [slipStep_end]
    nofun

/-- An open escape stays open over a byte that is neither a code of a pair nor the delimiter. -/
theorem slipStep_escaping_other {c : Config} {b : Byte} (h1 : b ≠ c.escEndByte) (h2 : b ≠ c.escEscByte)
    (h3 : b ≠ c.endByte) : slipStep c .escaping b = (.escaping, .none) := by
  simp [slipStep, h1, h2, h3]

/-- R128 (d), the ways out of `ESCAPING`. -/
theorem slipStep_leaves_escaping_iff {c : Config} (f : ConfigFacts c) (b : Byte) :
    (slipStep c .escaping b).1 ≠ .escaping ↔ b = c.escEndByte ∨ b = c.escEscByte ∨ b = c.endByte := by
  constructor
  · intro h
    by_contra hb
    obtain ⟨h1, h2, h3⟩ : b ≠ c.escEndByte ∧ b ≠ c.escEscByte ∧ b ≠ c.endByte := by simpa only [not_or] using hb
    exact h (by rw [slipStep_escaping_other h1 h2 h3])
  · rintro (rfl | rfl | rfl)
    · rw [slipStep_escEnd f]; nofun
    · rw [slipStep_escEsc f]; nofun
    · rw [slipStep_end]; nofun

/-- Settles O7: one lemma for each of R128 (a) to (d); (e) is `slipRun_stuff`, by induction on the payload. -/
theorem decoderTableProperties : Obligations.DecoderTableProperties := by
  intro c hv
  have f := config_facts hv
  exact ⟨fun d b => outcomeBytes_length_le _, slipStep_done_iff c, slipStep_end_dstate c, slipStep_leaves_noFrame_iff c,
    slipStep_leaves_escaping_iff f, slipRun_stuff f⟩

/-! ### The byte classes as operations (R123 to R127, R141)

One lemma for each operation, with the decoder's state named: at a concrete state the case computes to its row. -/

theorem exec_rxEnd (s : State) : exec .rxEnd s = .next (acceptByte s.cfg.endByte s) := by
  rw [acceptByte, slipStep_end]
  rfl

section Cases

variable {s : State} {d : DState} (h : s.dstate = d)
include h

theorem exec_rxEsc_at : exec .rxEsc s = .next (settle (caseEsc d) s) := by
  subst h; rfl

theorem exec_rxEscEnd_at : exec .rxEscEnd s = .next (settle (caseEscEnd s.cfg d) s) := by
  subst h; rfl

theorem exec_rxEscEsc_at : exec .rxEscEsc s = .next (settle (caseEscEsc s.cfg d) s) := by
  subst h; rfl

theorem exec_rxData_at {b : Byte} (hb : classOf s.cfg b = .data) :
    exec (.rxData b) s = .next (settle (caseData b d) s) := by
  subst h; exact if_pos hb

/-- An outcome `NONE` that keeps the decoder's state changes nothing (R142). -/
theorem settle_dropped : settle (d, .none) s = s := by
  subst h; rfl

end Cases

theorem exec_rxData_refused {s : State} {b : Byte} (hb : classOf s.cfg b ≠ .data) :
    exec (.rxData b) s = .refused .codeByte :=
  if_neg hb

/-- Settles O8: the operation accepts the delimiter, which opens a frame or publishes one. -/
theorem rxEndStartsOrPublishes : Obligations.RxEndStartsOrPublishes := by
  intro s
  rw [exec_rxEnd]
  refine ⟨fun h => by rw [acceptByte_end_opens h], fun h => ?_⟩
  have hd : s.dstate ≠ .noFrame := by
    rcases h with h | h <;> rw [h] <;> nofun
  rw [acceptByte_end_publishes hd]

/-- Settles O9: every outcome of the escape byte is `NONE`. -/
theorem rxEscOpensAnEscape : Obligations.RxEscOpensAnEscape := by
  refine fun s => ⟨fun h => ?dropped, ?opened⟩
  case dropped => exact (exec_rxEsc_at h).trans (congrArg _ (settle_dropped h))
  case opened =>
    rintro (h | h)
    · exact exec_rxEsc_at h
    · exact exec_rxEsc_at h

/-- Settles O10: outside a frame the outcome is `NONE`, inside one it is a byte, which is stored. -/
theorem escapeCodesAreDataOrSubstitutes : Obligations.EscapeCodesAreDataOrSubstitutes := by
  refine fun s => ⟨fun h => ⟨?_, ?_⟩, fun h => ⟨⟨_, exec_rxEscEnd_at h, ?_⟩, _, exec_rxEscEsc_at h, ?_⟩,
    fun h => ⟨⟨_, exec_rxEscEnd_at h, ?_⟩, _, exec_rxEscEsc_at h, ?_⟩⟩
  · exact (exec_rxEscEnd_at h).trans (congrArg _ (settle_dropped h))
  · exact (exec_rxEscEsc_at h).trans (congrArg _ (settle_dropped h))
  · exact settle_byte_stored .inFrame s.cfg.escEndByte s
  · exact settle_byte_stored .inFrame s.cfg.escEscByte s
  · exact settle_byte_stored .inFrame s.cfg.endByte s
  · exact settle_byte_stored .inFrame s.cfg.escByte s

/-- Settles O11: a data byte gives the outcome `BYTE` in `IN_FRAME` alone, and a code byte is no operand. -/
theorem rxDataIsStoredOnlyInsideAFrame : Obligations.RxDataIsStoredOnlyInsideAFrame := by
  refine fun s b => ⟨fun hb => ⟨fun h => ?noFrame, fun h => ?inFrame, fun h => ?escaping⟩, exec_rxData_refused⟩
  case noFrame => exact (exec_rxData_at h hb).trans (congrArg _ (settle_dropped h))
  case inFrame => exact ⟨_, exec_rxData_at h hb, settle_byte_stored .inFrame b s⟩
  case escaping => exact (exec_rxData_at h hb).trans (congrArg _ (settle_dropped h))

end Sys2Proof.Machine
end

section
/-! Frame assembly (42_frame_assembly.md): `ACCEPT` on each outcome of the decoder and publication (R141 to R144), the
cutting of an over-long frame (R147), and the unscheduled step, which always completes (R140). -/

namespace Sys2Proof.Machine

/-! ### `ACCEPT` by the decoder's outcome (R141, R142) -/

/-- `ACCEPT` acts on the outcome, under its name, and the decoder's next state. -/
theorem exec_accept_of_outcome {s : State} {b : Byte} {o : DecOut} (h : (slipStep s.cfg s.dstate b).2 = o) :
    exec (.accept b) s = .next (settle ((slipStep s.cfg s.dstate b).1, o) s) := by
  subst h; rfl

/-- Settles O12: one law of `settle` for each outcome. -/
theorem acceptActsOnTheOutcome : Obligations.AcceptActsOnTheOutcome := by
  refine fun s b => ⟨fun h => ?none, fun v h => ⟨_, exec_accept_of_outcome h, ?byte⟩, fun h => ?done⟩
  case none => rw [exec_accept_of_outcome h, settle_none]
  case byte => exact settle_byte_stored _ v s
  case done => rw [exec_accept_of_outcome h, settle_done]

/-! ### Publication by a delimiter and by force (R143, R144) -/

/-- The decoder yields a byte only inside a frame, and stays there. -/
theorem slipStep_byte_inFrame {c : Config} {d : DState} {b v : Byte} (h : (slipStep c d b).2 = .byte v) :
    (slipStep c d b).1 = .inFrame := by
  obtain ⟨d', e, -⟩ | ⟨w, e, -⟩ | ⟨e, -⟩ := slipStep_cases c d b <;> rw [e] at h ⊢
  · cases h
  · cases h

/-- Settles O13: the outcome stores its byte in range by the invariant, and publishes when that byte is the last. -/
theorem fullBufferIsPublishedByForce : Obligations.FullBufferIsPublishedByForce := by
  intro s b v hinv h
  have hd := slipStep_byte_inFrame h
  obtain ⟨hdst, hat, hkept, hfull, hfree, -⟩ := settle_byte_stored (slipStep s.cfg s.dstate b).1 v s
  refine ⟨_, exec_accept_of_outcome h, hinv.cursor_lt, hdst.trans hd, hat, hkept, fun hc => ?_, hfree⟩
  obtain ⟨hcmd, hact, hcur⟩ := hfull hc
  exact ⟨hcmd, hact, hcur, frameReady_of_cmd hcmd⟩

/-- The outcome `DONE`, and the byte that fills the buffer, publish whatever `CMD` held. -/
theorem settle_publishes {r : DState × DecOut} {s : State}
    (h : r.2 = .done ∨ (∃ v, r.2 = .byte v) ∧ s.cursor + 1 = s.cfg.cap) :
    (settle r s).cmd = some s.active ∧ (settle r s).active = otherBuf s.active ∧ (settle r s).cursor = 0 := by
  obtain ⟨d, o⟩ := r
  obtain rfl | ⟨⟨v, rfl⟩, hc⟩ := h
  · exact ⟨rfl, rfl, rfl⟩
  · obtain ⟨-, -, -, hfull, -⟩ := settle_byte_stored d v s
    exact hfull hc

theorem cmdIdx_of_cmd {s : State} {x : BufIdx} (h : s.cmd = some x) : s.cmdIdx = x := by
  rw [State.cmdIdx, h]
  rfl

/-- Settles O14: both ways to publish, and the new active buffer is not the one stored to. -/
theorem publicationSwapsAndNamesTheBuffer : Obligations.PublicationSwapsAndNamesTheBuffer := by
  intro s b h
  obtain ⟨hcmd, hact, hcur⟩ := settle_publishes h
  have hready := frameReady_of_cmd hcmd
  exact ⟨_, rfl, hready, cmdIdx_of_cmd hcmd, hact, hcur, hready, settle_dstate ..,
    fun k => byteAt_settle_other _ s (.inl (otherBuf_ne s.active)), settle_outside ..⟩

/-! ### Cutting an over-long frame (R147) -/

theorem swapTimes_succ (n : Nat) (x : BufIdx) : swapTimes (n + 1) x = otherBuf (swapTimes n x) := by
  induction n generalizing x with
  | zero => rfl
  | succ n ih => exact ih (otherBuf x)

/-- From `s`, with the cursor at 0, to `t` the bytes `p` have been stored as `m` full buffers, in alternation, and `r`
bytes behind the cursor: the last full buffer and those `r` bytes are in place. -/
structure CutInto (s t : State) (p : List Byte) (m r : Nat) : Prop where
  cfg : t.cfg = s.cfg
  length : p.length = m * s.cfg.cap + r
  below : r < s.cfg.cap
  cursor : t.cursor = r
  active : t.active = swapTimes m s.active
  uncut : m = 0 → t.cmd = s.cmd
  cut : m ≠ 0 → t.cmd = some (otherBuf t.active)
  rest : ∀ j, j < r → p[m * s.cfg.cap + j]? = some (t.byteAt t.active j)
  piece : m ≠ 0 → ∀ j, j < s.cfg.cap → p[(m - 1) * s.cfg.cap + j]? = some (t.byteAt (otherBuf t.active) j)

theorem CutInto.start {s : State} (hcap : 0 < s.cfg.cap) (hc : s.cursor = 0) (d : DState) :
    CutInto s { s with dstate := d } [] 0 0 where
  cfg := rfl
  length := by simp
  below := hcap
  cursor := hc
  active := rfl
  uncut _ := rfl
  cut h := absurd rfl h
  rest := nofun
  piece h := absurd rfl h

/-- How a frame is cut does not depend on the decoder's state. -/
theorem CutInto.setDstate {s t : State} {p : List Byte} {m r : Nat} (h : CutInto s t p m r) (d : DState) :
    CutInto s { t with dstate := d } p m r where
  cfg := h.cfg
  length := h.length
  below := h.below
  cursor := h.cursor
  active := h.active
  uncut := h.uncut
  cut := h.cut
  rest j hj := (h.rest j hj).trans (congrArg some (byteAt_dstate t d _ j).symm)
  piece hm j hj := (h.piece hm j hj).trans (congrArg some (byteAt_dstate t d _ j).symm)

section Store

variable {s t u : State} {p : List Byte} {m r : Nat} {v : Byte} {d : DState}

/-- After a store, the bytes behind the new cursor are those before and the new one. -/
theorem CutInto.rest_stored (h : CutInto s t p m r) (hv : Stored t u v d) {j : Nat} (hj : j < r + 1) :
    (p ++ [v])[m * s.cfg.cap + j]? = some (u.byteAt t.active j) := by
  obtain ⟨-, hat, hkept, -⟩ := hv
  have hlen := h.length
  obtain rfl | hne := eq_or_ne j r
  · rw [← hlen, List.getElem?_concat_length, ← hat, h.cursor]
  · rw [List.getElem?_append_left (by omega), hkept _ _ (.inr (h.cursor ▸ hne)), h.rest j (by omega)]

/-- A byte that does not fill the buffer is one more behind the cursor. -/
theorem CutInto.store (h : CutInto s t p m r) (hv : Stored t u v d) (hc : r + 1 ≠ s.cfg.cap) :
    CutInto s u (p ++ [v]) m (r + 1) := by
  have hrest (j : Nat) (hj : j < r + 1) := h.rest_stored hv hj
  obtain ⟨-, -, hkept, -, hfree, -, -, -, -, -, hcfg, -⟩ := hv
  obtain ⟨hcmd, hact, hcur⟩ := hfree (by rwa [h.cursor, h.cfg])
  have hlen := h.length
  have hlt := h.below
  exact {
    cfg := hcfg.trans h.cfg
    length := by rw [List.length_append, hlen]; rfl
    below := by omega
    cursor := by rw [hcur, h.cursor]
    active := hact.trans h.active
    uncut := fun hm => hcmd.trans (h.uncut hm)
    cut := fun hm => by rw [hcmd, hact, h.cut hm]
    rest := hact ▸ hrest
    piece := fun hm j hj => by
      have hwhole : (m - 1) * s.cfg.cap + s.cfg.cap = m * s.cfg.cap := by
        rw [← Nat.succ_mul, Nat.succ_eq_add_one, Nat.sub_add_cancel (Nat.pos_of_ne_zero hm)]
      rw [hact, List.getElem?_append_left (by omega), h.piece hm j hj, hkept _ _ (.inl (otherBuf_ne _))] }

/-- The byte that fills the buffer ends a piece (R143). -/
theorem CutInto.fill (h : CutInto s t p m r) (hv : Stored t u v d) (hc : r + 1 = s.cfg.cap) :
    CutInto s u (p ++ [v]) (m + 1) 0 := by
  have hrest (j : Nat) (hj : j < r + 1) := h.rest_stored hv hj
  obtain ⟨-, -, -, hfull, -, -, -, -, -, -, hcfg, -⟩ := hv
  obtain ⟨hcmd, hact, hcur⟩ := hfull (by rwa [h.cursor, h.cfg])
  have hlen := h.length
  exact {
    cfg := hcfg.trans h.cfg
    length := by rw [List.length_append, hlen, Nat.succ_mul, ← hc]; rfl
    below := by omega
    cursor := hcur
    active := by rw [hact, h.active, swapTimes_succ]
    uncut := nofun
    cut := fun _ => by rw [hcmd, hact, otherBuf_otherBuf]
    rest := nofun
    piece := fun _ j hj => by
      rw [hact, otherBuf_otherBuf]
      exact hrest j (hc ▸ hj) }

end Store

/-- A stream without a delimiter goes on cutting: the bytes the decoder makes of it follow those stored before. -/
theorem acceptAll_cuts {bs : List Byte} {s t : State} {p : List Byte} {m r : Nat} (h : CutInto s t p m r)
    (hb : s.cfg.endByte ∉ bs) :
    ∃ m' r', CutInto s (acceptAll bs t) (p ++ (slipRun s.cfg t.dstate bs).2) m' r' := by
  induction bs generalizing t p m r with
  | nil => exact ⟨m, r, by simpa [slipRun] using h⟩
  | cons b bs ih =>
    obtain ⟨hne, hb⟩ := not_or.1 (List.mem_cons.not.1 hb)
    simp only [acceptAll_cons, slipRun]
    rw [← h.cfg] at hne ⊢
    obtain ⟨d, hstep, -, ht⟩ | ⟨v, hstep, hst⟩ | ⟨-, -, hend, -⟩ := acceptByte_cases b t
    · rw [hstep, h.cfg, ht]
      exact ih (h.setDstate d) hb
    · have hd : (acceptByte b t).dstate = .inFrame := by rw [acceptByte_dstate, hstep]
      rw [hstep, ← hd, h.cfg, outcomeBytes, ← List.append_assoc]
      by_cases hc : r + 1 = s.cfg.cap
      · exact ih (h.fill hst hc) hb
      · exact ih (h.store hst hc) hb
    · exact absurd hend.symm hne

/-- A frame without its closing delimiter is cut into the full buffers of its payload and the remainder. -/
theorem acceptAll_openFrame_cuts {s : State} (f : ConfigFacts s.cfg) (hd : s.dstate = .noFrame) (hc : s.cursor = 0)
    (p : List Byte) : ∃ m r, CutInto s (acceptAll (s.cfg.endByte :: stuff s.cfg p) s) p m r := by
  have hcap : 0 < s.cfg.cap := Nat.lt_of_lt_of_le (by omega) f.cap_holds_limit
  have h := acceptAll_cuts (CutInto.start hcap hc .inFrame) (end_notMem_stuff f p)
  rwa [slipRun_stuff f, List.nil_append, ← acceptByte_end_opens hd, ← acceptAll_cons] at h

/-- Settles O52: the number of pieces and the remainder of `CutInto` are the quotient and the remainder of the length
by `CAP`. -/
theorem overlongFrameIsCutIntoPieces : Obligations.OverlongFrameIsCutIntoPieces := by
  intro s p hv hd hc t
  have f := config_facts hv
  obtain ⟨m, r, h⟩ : ∃ m r, CutInto s t p m r := acceptAll_openFrame_cuts f hd hc p
  have hpos : 0 < s.cfg.cap := Nat.zero_lt_of_lt h.below
  obtain ⟨hdiv, hmod⟩ : p.length / s.cfg.cap = m ∧ p.length % s.cfg.cap = r :=
    (Nat.div_mod_unique hpos).2 ⟨by rw [h.length, Nat.mul_comm, Nat.add_comm], h.below⟩
  have hcut : s.cfg.cap ≤ p.length → m ≠ 0 := fun hle => hdiv ▸ (Nat.div_pos hle hpos).ne'
  rw [hdiv, hmod]
  exact ⟨acceptAll_openFrame_dstate f hd p, h.cursor, h.active,
    fun hlt => h.uncut (hdiv ▸ Nat.div_eq_of_lt hlt), fun hle => h.cut (hcut hle), h.rest,
    fun hle => h.piece (hcut hle), acceptAll_frame f hd p, acceptAll_outside ..⟩

/-! ### The unscheduled step completes (R93, R140) -/

/-- Before the run's `RESET` the unscheduled step is it (R253). -/
theorem step_reset {s : State} (hv : s.cfg.valid = true) (hp : s.phase = .beforeReset) (hs : s.sched = []) :
    step s = exec .reset s := by
  simp [step, stepMachine, runMove, feedMove, hv, hp, hs]

section Waiting

variable {s : State} (hu : Unscheduled s) (hm : s.intMode = .idle) (he : s.enterEnabled = false)
  (hq : s.rxq ≠ [] → s.rxPend ≠ 0)
include hu hm he hq

/-- The handler cannot be entered and no condition is to be raised: the next byte of the line arrives, whatever the
queue holds. -/
theorem step_push_waiting {b : Byte} {rest : Line} (hl : s.line.next = some (b, rest)) :
    step s = .next { s with rxq := arrive b s, line := rest } := by
  have hmove : feedMove s = .op (.envPush b) := by simpa [feedMove, hu.running, hm, he, hl] using hq
  rw [step_of_feedMove_op hu hmove rfl]
  simp [exec, execEnvPush, hl]

/-- The same at an exhausted line: the consumer, which the idle handler does not hold off, polls. -/
theorem step_poll_waiting (hl : s.line.next = none) (hr : s.conRun = none) :
    step s = .next (s.answer (.cmd s.cmd)) := by
  have hmove : feedMove s = .op .cmdPoll := by simpa [feedMove, hu.running, hm, he, hl, hr] using hq
  rw [step_of_feedMove_op hu hmove rfl]
  exact asConsumer_free ⟨hr, by simp [State.heldOff, hm]⟩ _

end Waiting

/-- Settles O50: the branches of `feedMove`, each of whose moves is enabled. -/
theorem unscheduledStepCompletes : Obligations.UnscheduledStepCompletes := by
  intro s hv hs hc
  cases hp : s.phase with
  | beforeReset => exact ⟨_, by rw [step_reset hv hp hs, exec, execReset, hp]⟩
  | running =>
    have hu : Unscheduled s := ⟨hv, hp, hs⟩
    cases hm : s.intMode with
    | draining =>
      cases hq : s.rxq with
      | nil => exact ⟨_, step_exit hu hm hq⟩
      | cons b q => exact ⟨_, step_pop hu hm hq⟩
    | idle =>
      cases he : s.enterEnabled with
      | true => exact ⟨_, step_enter hu he⟩
      | false =>
        by_cases hraise : s.rxq ≠ [] ∧ s.rxPend = 0
        · obtain ⟨hq, hpend⟩ := hraise
          exact ⟨_, step_raise hu hm hq hpend⟩
        · have hwait : s.rxq ≠ [] → s.rxPend ≠ 0 := not_and.1 hraise
          cases hl : s.line.next with
          | some arrival => exact ⟨_, step_push_waiting hu hm he hwait hl⟩
          | none => exact ⟨_, step_poll_waiting hu hm he hwait hl hc⟩

end Sys2Proof.Machine
end

section
/-! The byte intake (43_byte_intake.md): the intake's operations and the environment's moves where they are enabled and
where not (R161 to R166), an invocation's steps one after another (R160, R167), and the switch `HANDLER_EXCLUSIVE`
(R170). -/

namespace Sys2Proof.Machine

/-! ### The intake's operations (R161 to R163) -/

theorem enterEnabled_iff (s : State) :
    s.enterEnabled = true ↔ s.intMode = .idle ∧ s.irqEn = true ∧ s.irqMask = false ∧ s.rxPend ≠ 0 := by
  simp [State.enterEnabled, and_assoc]

theorem exec_intEnter_enabled {s : State} (h : s.enterEnabled = true) : exec .intEnter s = .next (enterHandler s) :=
  if_pos h

theorem exec_intEnter_refused {s : State} (h : ¬s.enterEnabled = true) :
    exec .intEnter s = .refused .enterNotEnabled :=
  if_neg h

/-- Settles O17: the enabling condition is `State.enterEnabled`, and the entry is `enterHandler`. -/
theorem intEnterClearsPendingAndDrains : Obligations.IntEnterClearsPendingAndDrains := by
  intro s
  rw [← enterEnabled_iff]
  exact ⟨exec_intEnter_enabled, exec_intEnter_refused⟩

theorem exec_intPop_enabled {s : State} {b : Byte} {q : List Byte} (hm : s.intMode = .draining) (hq : s.rxq = b :: q) :
    exec .intPop s = .next (acceptByte b { s with rxq := q }) := by
  simp only [exec, execIntPop, hm, hq]

theorem exec_intPop_refused {s : State} (h : s.intMode = .idle ∨ s.rxq = []) :
    exec .intPop s = .refused .popNotEnabled := by
  cases hm : s.intMode with
  | idle => simp only [exec, execIntPop, hm]
  | draining =>
    have hq : s.rxq = [] := h.resolve_left (by simp [hm])
    simp only [exec, execIntPop, hm, hq]

/-- Settles O18: the enabled pop is `ACCEPT` of the head, which leaves the queue alone. -/
theorem intPopAcceptsTheHead : Obligations.IntPopAcceptsTheHead := by
  refine fun s => ⟨fun b q hm hq => ?_, exec_intPop_refused⟩
  have hpop := exec_intPop_enabled hm hq
  obtain ⟨-, -, -, -, hrxq, -⟩ := acceptByte_outside b { s with rxq := q }
  exact ⟨hpop, _, hpop, hrxq⟩

theorem exec_intExit_enabled {s : State} (hm : s.intMode = .draining) (hq : s.rxq = []) :
    exec .intExit s = .next (leaveHandler s) := by
  simp only [exec, execIntExit, hm, hq]

theorem exec_intExit_refused {s : State} (h : s.intMode = .idle ∨ s.rxq ≠ []) :
    exec .intExit s = .refused .exitNotEnabled := by
  cases hm : s.intMode with
  | idle => simp only [exec, execIntExit, hm]
  | draining =>
    obtain ⟨b, q, hq⟩ := List.exists_cons_of_ne_nil (h.resolve_left (by simp [hm]))
    simp only [exec, execIntExit, hm, hq]

/-- Settles O19: the exit is `leaveHandler`, where the queue is found empty. -/
theorem intExitOnlyOnEmptyQueue : Obligations.IntExitOnlyOnEmptyQueue :=
  fun _ => ⟨exec_intExit_enabled, exec_intExit_refused⟩

/-! ### The environment's moves (R164 to R166) -/

theorem arrive_room (b : Byte) {s : State} (h : s.rxq.length < s.cfg.fifoDepth) : arrive b s = s.rxq ++ [b] :=
  if_pos h

theorem arrive_lost (b : Byte) {s : State} (h : s.cfg.fifoDepth ≤ s.rxq.length) : arrive b s = s.rxq :=
  if_neg (Nat.not_lt.2 h)

theorem exec_envPush_next {s : State} {b : Byte} {rest : Line} (hl : s.line.next = some (b, rest)) :
    exec (.envPush b) s = .next { s with rxq := arrive b s, line := rest } := by
  simp only [exec, execEnvPush, hl, if_true]

theorem exec_envPush_other {s : State} {b h : Byte} {rest : Line} (hl : s.line.next = some (h, rest)) (hb : b ≠ h) :
    exec (.envPush b) s = .refused .notNextOfLine := by
  simp only [exec, execEnvPush, hl, if_neg hb]

theorem exec_envPush_exhausted {s : State} (b : Byte) (h : s.line.exhausted = true) :
    exec (.envPush b) s = .refused .lineExhausted := by
  simp only [exec, execEnvPush, (line_next_none_iff _).2 h]

/-- Settles O20: the push by the line's next byte, the arrival by the room in the queue, the line by its form. -/
theorem envPushAppendsOrLoses : Obligations.EnvPushAppendsOrLoses := by
  refine fun s b => ⟨fun rest hl hroom => ?room, fun rest hl hfull => ?lost, fun h rest hl => exec_envPush_other hl,
    exec_envPush_exhausted b, fun x xs e hl => ?listed, fun n hl => ?free, line_exhausted_iff s.line⟩
  case room => rw [exec_envPush_next hl, arrive_room b hroom]
  case lost => rw [exec_envPush_next hl, arrive_lost b hfull]
  case listed => rw [hl, line_next_cons]
  case free => rw [hl, line_next_free]

theorem pendBit_getLsbD (c : Condition) :
    (pendBit c).getLsbD 0 = decide (c = .data) ∧ (pendBit c).getLsbD 1 = decide (c = .tout) := by
  cases c <;> decide

/-- Settles O21: bit by bit, a condition's pending bit is joined to the two bits of `RX_PEND`. -/
theorem envRaiseSetsOnePendingBit : Obligations.EnvRaiseSetsOnePendingBit := by
  intro s c
  obtain ⟨hdata, htout⟩ := pendBit_getLsbD c
  exact ⟨s.rxPend ||| pendBit c, rfl, by rw [BitVec.getLsbD_or, hdata], by rw [BitVec.getLsbD_or, htout]⟩

/-! ### An invocation with nothing between its steps (R160, R167, log 2) -/

theorem acceptByte_setRxq (b : Byte) (s : State) (q : List Byte) :
    acceptByte b { s with rxq := q } = { acceptByte b s with rxq := q } := by
  obtain ⟨hp, hm, -, -, -, -, hl, -⟩ := acceptByte_outside b s
  simp only [hp, hm, hl]
  exact acceptByte_intake b s s.rxPend s.intMode q s.line

theorem Unscheduled.of_outside {s t : State} (h : OutsideReceiveSame s t) (hu : Unscheduled s) : Unscheduled t := by
  obtain ⟨-, -, -, -, -, hc, -, -, hs, hp, -, -⟩ := h
  exact ⟨hc ▸ hu.valid, hp.trans hu.running, hs.trans hu.empty⟩

/-- A step for each byte of the queue, and one more, which finds it empty and leaves the handler. -/
theorem run_drains (q : List Byte) {s : State} (hu : Unscheduled s) (hm : s.intMode = .draining) (hq : s.rxq = q) :
    Host.Core.run core (q.length + 1) s = .next (leaveHandler (acceptAll q { s with rxq := [] })) := by
  induction q generalizing s with
  | nil =>
    rw [List.length_nil, core_run_succ 0 (step_exit hu hm hq), acceptAll_nil, ← hq]
    rfl
  | cons b q ih =>
    have hu' : Unscheduled { s with rxq := q } := ⟨hu.valid, hu.running, hu.empty⟩
    obtain ⟨-, hmode, -, -, hrxq, -⟩ := acceptByte_outside b { s with rxq := q }
    rw [List.length_cons, core_run_succ _ (step_pop hu hm hq),
      ih (hu'.of_outside (acceptByte_outside b _)) (hmode.trans hm) hrxq, ← acceptByte_setRxq, acceptAll_cons]

/-- Settles O56: the drained run, by induction on the queue. -/
theorem invocationDrainsTheQueueInOrder : Obligations.InvocationDrainsTheQueueInOrder :=
  fun s hv hp hs hm => run_drains s.rxq ⟨hv, hp, hs⟩ hm rfl

/-! ### `HANDLER_EXCLUSIVE` (R170) -/

/-- While the handler is draining, the switch refuses every consumer operation. -/
theorem exec_consumerHeldOff {i : Instr} {s : State} (ha : i.agent = .con) (hr : s.conRun = none)
    (hh : s.heldOff = true) : exec i s = .refused .consumerHeldOff := by
  have held (act : Host.Outcome State Fault Refusal) : asConsumer s act = .refused .consumerHeldOff := by
    simp [asConsumer, hr, hh]
  cases i with
  | cmdPoll | cmdTake | bufRd8 | bufRd16 | bufRd32 | hdrOp | hdrCk | hdrLen | ckHardlen | ckSum | ckFixlen | ckData
  | irqEnable | irqMask | irqUnmask => exact held _
  | rxEnd | rxEsc | rxEscEnd | rxEscEsc | rxData | accept | intEnter | intPop | intExit | envPush | envRaise | reset =>
    cases ha

/-- The state with the switch `HANDLER_EXCLUSIVE` set to a value. -/
def State.setExclusive (s : State) (w : Bool) : State :=
  { s with cfg := { s.cfg with handlerExclusive := w } }

/-- Acting on an outcome does not look at the switch. -/
theorem settle_setExclusive (r : DState × DecOut) (s : State) (w : Bool) :
    settle r (s.setExclusive w) = (settle r s).setExclusive w := by
  obtain ⟨d, o⟩ := r
  cases o with
  | none => rfl
  | done => rfl
  | byte v =>
    rw [settle_byte d v s, apply_ite (State.setExclusive · w)]
    rfl

/-- The consumer may move under the other value of the switch if that is off or the handler is left. -/
theorem ConsumerFree.setExclusive {s : State} {w : Bool} (h : ConsumerFree s) (hw : w = false ∨ s.intMode = .idle) :
    ConsumerFree (s.setExclusive w) := by
  refine ⟨h.1, ?_⟩
  rcases hw with rfl | hm
  · rfl
  · simp [State.heldOff, State.setExclusive, hm]

/-- The consumer's turn, for an action that completes under either value of the switch with the same effect. -/
theorem asConsumer_setExclusive {s t : State} {w : Bool} {act act' : Host.Outcome State Fault Refusal}
    (hw : w = false ∨ s.intMode = .idle) (hact : act = .next t → act' = .next (t.setExclusive w))
    (h : asConsumer s act = .next t) : asConsumer (s.setExclusive w) act' = .next (t.setExclusive w) := by
  obtain ⟨hf, h⟩ := asConsumer_next h
  rw [asConsumer_free (hf.setExclusive hw), hact h]

theorem withRange_setExclusive {s t : State} {w : Bool} {i k n : Nat}
    {f f' : BufIdx → Host.Outcome State Fault Refusal} (hf : ∀ x, f x = .next t → f' x = .next (t.setExclusive w))
    (h : withRange i k n s f = .next t) : withRange i k n (s.setExclusive w) f' = .next (t.setExclusive w) := by
  obtain ⟨x, rfl, hr, h⟩ := withRange_next h
  rw [withRange_in (s := s.setExclusive w) x hr, hf x h]

/-- A consumer operation that completes does so under the other value of the switch, with the same effect. -/
theorem exec_consumer_setExclusive {i : Instr} {s t : State} {w : Bool} (ha : i.agent = .con)
    (hw : w = false ∨ s.intMode = .idle) (h : exec i s = .next t) :
    exec i (s.setExclusive w) = .next (t.setExclusive w) := by
  cases i with
  | cmdPoll | cmdTake | irqEnable | irqMask | irqUnmask =>
    exact asConsumer_setExclusive hw (fun hx => by cases hx; rfl) h
  | bufRd8 | bufRd16 | bufRd32 | hdrOp | hdrCk | hdrLen | ckHardlen | ckSum | ckFixlen =>
    exact asConsumer_setExclusive hw (withRange_setExclusive fun x hx => by cases hx; rfl) h
  | ckData =>
    refine asConsumer_setExclusive hw (withRange_setExclusive fun x hx => ?_) h
    split at hx
    · cases hx
    · next hc =>
      cases hx
      exact if_neg hc
  | rxEnd | rxEsc | rxEscEnd | rxEscEsc | rxData | accept | intEnter | intPop | intExit | envPush | envRaise | reset =>
    cases ha

/-- `ACCEPT` and its cases do not look at the switch. -/
theorem exec_insidePop_setExclusive {i : Instr} {s t : State} (hi : i.insidePop = true) (w : Bool)
    (h : exec i s = .next t) : exec i (s.setExclusive w) = .next (t.setExclusive w) := by
  cases i with
  | rxEnd | rxEsc | rxEscEnd | rxEscEsc | accept =>
    cases h
    exact congrArg Host.Outcome.next (settle_setExclusive _ s w)
  | rxData b =>
    by_cases hb : classOf s.cfg b = .data
    · rw [exec_rxData_at rfl hb] at h
      cases h
      exact (exec_rxData_at (s := s.setExclusive w) rfl hb).trans (congrArg _ (settle_setExclusive _ s w))
    · rw [exec_rxData_refused hb] at h
      cases h
  | intEnter | intPop | intExit | envPush | envRaise | cmdPoll | cmdTake | bufRd8 | bufRd16 | bufRd32 | hdrOp | hdrCk
  | hdrLen | ckHardlen | ckSum | ckFixlen | ckData | irqEnable | irqMask | irqUnmask | reset => cases hi

/-- The steps of the intake, the environment's moves and `RESET` do not look at the switch. -/
theorem Effect.exec_setExclusive {i : Instr} {s t : State} (he : Effect s i t) (hi : i.insidePop ≠ true)
    (ha : i.agent ≠ .con) (w : Bool) : exec i (s.setExclusive w) = .next (t.setExclusive w) := by
  cases he with
  | pop b q hm hq =>
    rw [exec_intPop_enabled (s := s.setExclusive w) hm hq]
    exact congrArg Host.Outcome.next (settle_setExclusive _ { s with rxq := q } w)
  | enter he => exact exec_intEnter_enabled (s := s.setExclusive w) he
  | leave hm hq => exact exec_intExit_enabled (s := s.setExclusive w) hm hq
  | push b rest hl => exact exec_envPush_next (s := s.setExclusive w) hl
  | raise c => rfl
  | reset hp => simp [exec, execReset, State.setExclusive, State.resetWith, hp]
  | receive r hi' => exact absurd hi' hi
  | read r ha' => exact absurd ha' ha
  | take | enable | mask | unmask => exact absurd rfl ha

/-- Settles O48: only the consumer's turn looks at the switch. -/
theorem handlerExclusiveChangesOnlyEnabling : Obligations.HandlerExclusiveChangesOnlyEnabling := by
  refine ⟨fun i s ha hr hx hm => exec_consumerHeldOff ha hr (by simp [State.heldOff, hx, hm]), ?_⟩
  intro i s t w h hw
  by_cases ha : i.agent = .con
  · exact exec_consumer_setExclusive ha (hw ha) h
  by_cases hi : i.insidePop = true
  · exact exec_insidePop_setExclusive hi w h
  · exact (exec_next_effect h).exec_setExclusive hi ha w

end Sys2Proof.Machine
end

section
/-! The consumer port (44_consumer_port.md): the single exchange of `CMD` (R180, R181), the ranged reads (R184 to R186)
and the header fields (R188 to R190). -/

namespace Sys2Proof.Machine

/-! ### `CMD.POLL` and `CMD.TAKE` (R180, R181) -/

/-- Settles O22: a free consumer's poll and take are their actions. -/
theorem pollReadsAndTakeExchanges : Obligations.PollReadsAndTakeExchanges :=
  fun _ hf => ⟨asConsumer_free hf _, _, asConsumer_free hf _, rfl, rfl, rfl, rfl⟩

/-! ### Reads of a range of a buffer (R54, R184 to R186) -/

section RangedRead

variable {s : State} (hf : ConsumerFree s)
include hf

theorem rangedRead_in (x : BufIdx) {k n : Nat} (h : k + n ≤ s.cfg.cap) (f : BufIdx → Result) :
    asConsumer s (withRange (bufNumber x) k n s fun x => .next (s.answer (f x))) = .next (s.answer (f x)) := by
  rw [asConsumer_free hf, withRange_in x h]

theorem rangedRead_past (x : BufIdx) {k n : Nat} (h : s.cfg.cap < k + n)
    (f : BufIdx → Host.Outcome State Fault Refusal) :
    asConsumer s (withRange (bufNumber x) k n s f) = .refused .pastCapacity := by
  rw [asConsumer_free hf, withRange_past x h]

theorem rangedRead_badIndex {i : Nat} (k n : Nat) (h : 2 ≤ i) (f : BufIdx → Host.Outcome State Fault Refusal) :
    asConsumer s (withRange i k n s f) = .refused .badBufferIndex := by
  rw [asConsumer_free hf, withRange_badIndex k n h]

end RangedRead

/-- Settles O23: a read of a range of one byte. -/
theorem bufRd8ReturnsTheByte : Obligations.BufRd8ReturnsTheByte :=
  fun _ x k hf => ⟨fun h => rangedRead_in hf x (Nat.succ_le_of_lt h) _,
    fun h => rangedRead_past hf x (Nat.lt_succ_of_le h) _, fun _ h => rangedRead_badIndex hf k 1 h _⟩

/-- Settles O24: a read of a range of two bytes, with the value of `le16`. -/
theorem bufRd16IsLittleEndian : Obligations.BufRd16IsLittleEndian :=
  fun s x k hf => ⟨fun h => ⟨s.halfAt x k, rangedRead_in hf x h _, le16_toNat ..⟩,
    fun h => rangedRead_past hf x h _, fun _ h => rangedRead_badIndex hf k 2 h _⟩

/-- Settles O25: a read of a range of four bytes, with the value of `le32`. -/
theorem bufRd32IsLittleEndian : Obligations.BufRd32IsLittleEndian :=
  fun s x k hf => ⟨fun h => ⟨s.wordAt x k, rangedRead_in hf x h _, le32_toNat ..⟩,
    fun h => rangedRead_past hf x h _, fun _ h => rangedRead_badIndex hf k 4 h _⟩

/-! ### The header fields (R188 to R190) -/

/-- R8 (b): every buffer has room for a header. -/
theorem ConfigFacts.hdrLen_le_cap {c : Config} (f : ConfigFacts c) : hdrLen ≤ c.cap :=
  (Nat.le_add_right 4 _).trans f.cap_holds_limit

/-- Settles O26: reads of three ranges inside the header, which every buffer of a valid configuration holds. -/
theorem headerFieldsAreAtTheirOffsets : Obligations.HeaderFieldsAreAtTheirOffsets := by
  intro s x hf hv
  have hcap : 4 ≤ s.cfg.cap := (config_facts hv).hdrLen_le_cap
  refine ⟨?op, ?ck, ⟨s.dlenOf x, ?len, le16_toNat ..⟩, fun i hi => ⟨?opBad, ?ckBad, ?lenBad⟩⟩
  case op => exact rangedRead_in hf x (by omega) _
  case ck => exact rangedRead_in hf x (by omega) _
  case len => exact rangedRead_in hf x hcap _
  case opBad => exact rangedRead_badIndex hf 0 1 hi _
  case ckBad => exact rangedRead_badIndex hf 1 1 hi _
  case lenBad => exact rangedRead_badIndex hf 2 2 hi _

end Sys2Proof.Machine
end

section
/-! The validator (45_validator.md): each check is a read of a range of one buffer (`RangedRead`), answered with a
verdict on the bytes read (R203 to R206). The verdicts come first, then the four operations. -/

namespace Sys2Proof.Machine

/-! ### The lengths of a command (R51, R88) -/

theorem dlenOf_toNat (s : State) (x : BufIdx) :
    (s.dlenOf x).toNat = (s.byteAt x 2).toNat + 256 * (s.byteAt x 3).toNat :=
  le16_toNat ..

theorem wordAt_toNat (s : State) (x : BufIdx) (k : Nat) :
    (s.wordAt x k).toNat = (s.byteAt x k).toNat + 256 * (s.byteAt x (k + 1)).toNat +
      65536 * (s.byteAt x (k + 2)).toNat + 16777216 * (s.byteAt x (k + 3)).toNat :=
  le32_toNat ..

theorem dataOf_length (s : State) (x : BufIdx) : (s.dataOf x).length = (s.dlenOf x).toNat - s.cfg.dataHdr :=
  bytesAt_length ..

theorem dataOf_getElem? (s : State) (x : BufIdx) {j : Nat} (h : j < (s.dlenOf x).toNat - s.cfg.dataHdr) :
    (s.dataOf x)[j]? = some (s.byteAt x (hdrLen + s.cfg.dataHdr + j)) :=
  bytesAt_getElem? s x _ h

/-! ### The verdicts (R203, R205, R206) -/

theorem hardlenVerdict_over {c : Config} {dlen : Half} (h : c.lenLimit < dlen.toNat) :
    hardlenVerdict c dlen = .pair c.eBadLen c.hardlenStatus :=
  if_pos h

theorem ConfigFacts.eOk_ne_eBadLen {c : Config} (f : ConfigFacts c) : c.eOk ≠ c.eBadLen := fun h =>
  (List.nodup_cons.1 f.errors).1 (h ▸ List.mem_cons_self)

/-- The code `E_OK` tells that the declared length is within the limit, because R8 (e) keeps the codes apart. -/
theorem le_lenLimit_of_hardlenVerdict_ok {c : Config} (f : ConfigFacts c) {dlen : Half} {st : Byte}
    (h : hardlenVerdict c dlen = .pair c.eOk st) : dlen.toNat ≤ c.lenLimit := by
  refine Nat.not_lt.1 fun hover => ?_
  rw [hardlenVerdict_over hover] at h
  exact f.eOk_ne_eBadLen (Result.pair.inj h).1.symm

theorem fixlenVerdict_equal {e dlen : Half} (h : dlen.toNat = e.toNat) : fixlenVerdict e dlen = .ok :=
  if_pos (BitVec.eq_of_toNat_eq h)

theorem fixlenVerdict_other {e dlen : Half} (h : dlen.toNat ≠ e.toNat) : fixlenVerdict e dlen = .badLen :=
  if_neg fun he => h (congrArg _ he)

theorem dataVerdict_short {c : Config} {dlen : Half} (ck : Byte) (ilen : Word) (data : List Byte)
    (h : dlen.toNat < c.dataHdr) : dataVerdict c ck dlen ilen data = .badLen :=
  if_pos h

/-- The two checks of a command that holds its inner header: the checksum's verdict wins (D23). -/
theorem dataVerdict_value {c : Config} {dlen : Half} (ck : Byte) (ilen : Word) (data : List Byte)
    (h : c.dataHdr ≤ dlen.toNat) :
    (dataVerdict c ck dlen ilen data).value c =
      if xorsum c data ≠ ck then c.eBadCk else if ilen.toNat ≠ dlen.toNat - c.dataHdr then c.eBadLen else c.eOk := by
  rw [dataVerdict, if_neg (Nat.not_lt.2 h), apply_ite (ErrCode.value c), apply_ite (ErrCode.value c)]
  rfl

/-! ### `CK.DATA` (R206) -/

section DataCheck

variable {s : State} {x : BufIdx} (hf : ConsumerFree s)
include hf

theorem exec_ckData_past (hcap : hdrLen ≤ s.cfg.cap) (h : s.cfg.cap < hdrLen + (s.dlenOf x).toNat) :
    exec (.ckData (bufNumber x)) s = .refused .dataPastCapacity := by
  rw [exec, execCkData, asConsumer_free hf, withRange_in x hcap, if_pos h]

/-- A command that lies wholly inside its buffer is answered with the verdict on it. -/
theorem exec_ckData_inside (h : hdrLen + (s.dlenOf x).toNat ≤ s.cfg.cap) :
    exec (.ckData (bufNumber x)) s = .next (s.answer (.code
      ((dataVerdict s.cfg (s.byteAt x 1) (s.dlenOf x) (s.wordAt x 4) (s.dataOf x)).value s.cfg))) := by
  have hcap : 1 + 3 ≤ s.cfg.cap := (Nat.le_add_right hdrLen _).trans h
  rw [exec, execCkData, asConsumer_free hf, withRange_in x hcap, if_neg (Nat.not_lt.2 h)]

end DataCheck

/-- Settles O34: refused past the buffer, answered at once without an inner header, else the two checks of the data. -/
theorem ckDataChecksLengthAndChecksum : Obligations.CkDataChecksLengthAndChecksum := by
  intro s x dlen ilen hf hv hdlen hilen
  have hcap : hdrLen ≤ s.cfg.cap := (config_facts hv).hdrLen_le_cap
  rw [← dlenOf_toNat] at hdlen
  rw [← wordAt_toNat] at hilen
  subst hdlen hilen
  refine ⟨?past, fun hin hshort => ?short, fun hin hlong => ?checks, ?badIndex⟩
  case past => exact exec_ckData_past hf hcap
  case short =>
    rw [exec_ckData_inside hf hin, dataVerdict_short _ _ _ hshort]
    rfl
  case checks =>
    refine ⟨s.dataOf x, dataOf_length s x, fun _ => dataOf_getElem? s x, ?_⟩
    rw [exec_ckData_inside hf hin, dataVerdict_value _ _ _ hlong]
    rfl
  case badIndex => exact fun i hi => rangedRead_badIndex hf 1 3 hi _

/-- Settles O35: a pass keeps the declared length within the limit, and R8 (b) keeps the limit inside the buffer. -/
theorem hardlenPassKeepsDataCheckInRange : Obligations.HardlenPassKeepsDataCheckInRange := by
  intro s t i st hv h hpass
  have f := config_facts hv
  obtain ⟨hf, h⟩ := asConsumer_next h
  obtain ⟨x, rfl, -, h⟩ := withRange_next h
  cases h
  exact ⟨_, _, exec_ckData_in f hf (le_lenLimit_of_hardlenVerdict_ok f (Option.some.inj hpass)), rfl⟩

/-! ### `CK.HARDLEN`, `CK.SUM` and `CK.FIXLEN` (R203 to R205) -/

/-- Settles O31: the verdict on the declared length, which is read as an unsigned number. -/
theorem ckHardlenRejectsOversize : Obligations.CkHardlenRejectsOversize := by
  intro s x hf hv
  have f := config_facts hv
  rw [← dlenOf_toNat]
  refine ⟨fun h => ?exceeds, exec_ckHardlen_pass f hf, fun i hi => rangedRead_badIndex hf 2 2 hi _⟩
  case exceeds =>
    rw [exec, execCkHardlen, rangedRead_in hf x f.hdrLen_le_cap, hardlenVerdict_over h]
    rfl

/-- Settles O32: the bytes of the range are `State.bytesAt`. -/
theorem ckSumIsTheXorsumOfTheRange : Obligations.CkSumIsTheXorsumOfTheRange :=
  fun s x k n hf => ⟨fun h => ⟨s.bytesAt x k n, bytesAt_length s x k n, fun _ => bytesAt_getElem? s x k,
    rangedRead_in hf x h _⟩, fun h => rangedRead_past hf x h _, fun _ hi => rangedRead_badIndex hf k n hi _⟩

/-- Settles O33: two halves are equal exactly when their numbers are. -/
theorem ckFixlenComparesTheDeclaredLength : Obligations.CkFixlenComparesTheDeclaredLength := by
  intro s x e hf hv
  rw [← dlenOf_toNat, exec, execCkFixlen, rangedRead_in hf x (config_facts hv).hdrLen_le_cap]
  refine ⟨fun h => ?equal, fun h => ?other, fun i hi => rangedRead_badIndex hf 2 2 hi _⟩
  case equal =>
    rw [fixlenVerdict_equal h]
    rfl
  case other =>
    rw [fixlenVerdict_other h]
    rfl

end Sys2Proof.Machine
end

section
/-! The interrupt control bits (60_exceptions.md): what `IRQ.ENABLE`, `IRQ.MASK` and `IRQ.UNMASK` write (R226 to R228),
and how the two bits enable and hold off `INT.ENTER` (R161). -/

namespace Sys2Proof.Machine

section ControlOperations
variable {s : State} (hf : ConsumerFree s)
include hf

theorem exec_irqEnable_free : exec .irqEnable s = .next { s with irqEn := true } := asConsumer_free hf _

theorem exec_irqMask_free : exec .irqMask s = .next { s with irqMask := true } := asConsumer_free hf _

theorem exec_irqUnmask_free : exec .irqUnmask s = .next { s with irqMask := false } := asConsumer_free hf _

end ControlOperations

theorem exec_intEnter_masked {s : State} (h : s.irqMask = true) : exec .intEnter s = .refused .enterNotEnabled := by
  refine exec_intEnter_refused fun he => ?_
  obtain ⟨-, -, hunmasked, -⟩ := (enterEnabled_iff s).1 he
  exact Bool.false_ne_true (hunmasked.symm.trans h)

/-- Settles O36: `INT.ENTER` is enabled by four conditions, of which the operations write the two bits. -/
theorem interruptControlBits : Obligations.InterruptControlBits := by
  intro s hf
  refine ⟨exec_irqEnable_free hf, exec_irqMask_free hf, exec_irqUnmask_free hf, exec_intEnter_masked rfl,
    fun hpend hen hidle => ?unmasked, fun hpend hmask hidle => ?enabled⟩
  case unmasked => exact ⟨_, exec_intEnter_enabled ((enterEnabled_iff _).2 ⟨hidle, hen, rfl, hpend⟩)⟩
  case enabled => exact ⟨_, exec_intEnter_enabled ((enterEnabled_iff _).2 ⟨hidle, rfl, hmask, hpend⟩)⟩

end Sys2Proof.Machine
end

section
/-! Reset and hazards (70_reset_and_hazards.md): the one `RESET` of a run (R250, R253), and what a delimiter out of its
place, damage inside a frame and noise outside one do to the decoder (R267, R268, R272). -/

namespace Sys2Proof.Machine

/-! ### `RESET` (R250, R253) -/

/-- Before the run's `RESET` it is enabled and gives the reset state over the run's inputs. -/
theorem exec_reset_beforeReset {s : State} (hp : s.phase = .beforeReset) :
    exec .reset s = .next (State.resetWith s.cfg s.resetRxq s.line s.sched) := by
  simp only [exec, execReset, hp, State.resetWith]

theorem exec_reset_running {s : State} (hp : s.phase = .running) : exec .reset s = .refused .resetInMidRun := by
  simp only [exec, execReset, hp]

theorem runMove_reset_running {s : State} (hp : s.phase = .running) :
    runMove (.op .reset) s = .refused .resetInMidRun :=
  (runMove_op hp .reset).trans (exec_reset_running hp)

theorem runMove_reset_beforeReset {s : State} (hp : s.phase = .beforeReset) :
    runMove (.op .reset) s = .next (State.resetWith s.cfg s.resetRxq s.line s.sched) := by
  simp only [runMove, hp, if_true, exec_reset_beforeReset hp]

theorem runMove_other_beforeReset {s : State} {m : Move} (hp : s.phase = .beforeReset) (hm : m ≠ .op .reset) :
    runMove m s = .refused .beforeReset := by
  simp only [runMove, hp, if_neg hm]

/-- Settles O37: `RESET` is enabled, and the queue it leaves is the input cut to `FIFO_DEPTH`. -/
theorem resetGivesTheResetState : Obligations.ResetGivesTheResetState :=
  fun _ hp => ⟨exec_reset_beforeReset hp, List.length_take_le ..⟩

/-- Settles O39: the step is the scheduled move, and the phase decides which moves have a meaning. -/
theorem runStartsWithOneReset : Obligations.RunStartsWithOneReset := by
  intro s m rest hv hs
  rw [step_of_sched hv hs]
  refine ⟨fun hp hm => ?midRun, fun hp hm => ?otherMove, fun hp hm => ?reset⟩
  case midRun =>
    subst hm
    exact runMove_reset_running hp
  case otherMove => exact runMove_other_beforeReset hp hm
  case reset =>
    subst hm
    exact runMove_reset_beforeReset hp

/-! ### Bytes without a delimiter (R272) -/

/-- Outside a frame a byte other than the delimiter is dropped. -/
theorem acceptByte_dropped {s : State} {b : Byte} (hd : s.dstate = .noFrame) (hb : b ≠ s.cfg.endByte) :
    acceptByte b s = s := by
  rw [acceptByte, hd, slipStep_noFrame hb, settle_dropped hd]

/-- Inside a frame only the delimiter leads out of it. -/
theorem acceptByte_stays_inside {s : State} {b : Byte} (hd : s.dstate ≠ .noFrame) (hb : b ≠ s.cfg.endByte) :
    (acceptByte b s).dstate ≠ .noFrame := by
  rw [acceptByte_dstate]
  obtain ⟨d, h, hout⟩ | ⟨v, h, -⟩ | ⟨-, -, hend⟩ := slipStep_cases s.cfg s.dstate b
  · rw [h]
    exact fun hn => hd (hout hn)
  · rw [h]
    nofun
  · exact absurd hend hb

theorem acceptAll_stays_inside {bs : List Byte} {s : State} (hd : s.dstate ≠ .noFrame) (hb : s.cfg.endByte ∉ bs) :
    (acceptAll bs s).dstate ≠ .noFrame := by
  induction bs generalizing s with
  | nil => exact hd
  | cons b bs ih =>
    obtain ⟨hne, hb⟩ := not_or.1 (List.mem_cons.not.1 hb)
    exact ih (acceptByte_stays_inside hd (Ne.symm hne)) (by rwa [acceptByte_cfg])

/-- Settles O55: by induction on the noise, each byte of which is dropped. -/
theorem noiseOutsideFramesIsDropped : Obligations.NoiseOutsideFramesIsDropped := by
  intro s noise hd hb
  induction noise with
  | nil => rfl
  | cons b bs ih =>
    obtain ⟨hne, hb⟩ := not_or.1 (List.mem_cons.not.1 hb)
    rw [acceptAll_cons, acceptByte_dropped hd (Ne.symm hne), ih hb]

/-! ### Delimiters in and out of phase (R267, R268) -/

/-- A body without a delimiter, between two of them, is closed from inside a frame, whatever it holds. -/
theorem acceptAll_delimited {s : State} {body : List Byte} (hd : s.dstate = .noFrame) (hb : s.cfg.endByte ∉ body) :
    acceptAll (s.cfg.endByte :: body ++ [s.cfg.endByte]) s =
      publishedState (acceptAll body { s with dstate := .inFrame }) .noFrame := by
  have hinside : (acceptAll body { s with dstate := .inFrame }).dstate ≠ .noFrame := acceptAll_stays_inside nofun hb
  rw [acceptAll_append, acceptAll_cons _ body, acceptByte_end_opens hd, ← acceptByte_end_publishes hinside,
    acceptAll_cfg]
  rfl

/-- Settles O54: the closing delimiter publishes, which swaps the buffers. -/
theorem damagedFrameResynchronises : Obligations.DamagedFrameResynchronises := by
  intro s junk hd hb t
  have ht : t = publishedState (acceptAll junk { s with dstate := .inFrame }) .noFrame := acceptAll_delimited hd hb
  rw [ht]
  exact ⟨rfl, rfl, congrArg some (otherBuf_otherBuf _).symm⟩

/-- Settles O53: the frame's first delimiter publishes, its stuffed payload is noise outside a frame, and its last
delimiter opens the next frame. -/
theorem outOfPhaseFrameIsLost : Obligations.OutOfPhaseFrameIsLost := by
  intro s p hv hd
  have hnoise : acceptAll (stuff s.cfg p) (publishedState s .noFrame) = publishedState s .noFrame :=
    noiseOutsideFramesIsDropped _ _ rfl (end_notMem_stuff (config_facts hv) p)
  rw [frame, acceptAll_append, acceptAll_cons _ (stuff s.cfg p), acceptByte_end_publishes hd, hnoise]
  exact acceptByte_end_opens (s := publishedState s .noFrame) rfl

end Sys2Proof.Machine
end
